-- ==== Sys2Proof/Word.lean ====
section
/-! DEFINITION. The words of the block: the byte, the input event word, and the decode and schedule words (spec/30_encoding.md R70, R72, R75, R80). -/

namespace Sys2Proof

/-- One unsigned 8-bit value: a received byte or an element of ChannelBuffer (R26, R70). -/
abbrev Byte := BitVec 8

/-- The input event word on the `rx_event` port: fe in bit 8, data in bits 7..0 (R70). -/
abbrev EventWord := BitVec 9

/-- A schedule word: bit 9 selects the agent, bits 8..0 are the input event word (R80). -/
abbrev SchedWord := BitVec 10

/-- The RX decode word: rx_state in bits 10..9, fe' in bit 8, data in bits 7..0 (R72). -/
abbrev RxWord := BitVec 11

/-- The MAP decode word: map_phase in bits 2..1, update_pending in bit 0 (R75). -/
abbrev MapWord := BitVec 3

/-- The value of the `base_address` port and of the state element sampled from it (R29, R30). -/
abbrev BaseAddr := BitVec 9

/-- StartAddress, a 10-bit value (R30). -/
abbrev StartAddr := BitVec 10

end Sys2Proof
end

