-- ==== Sys2Proof/Config.lean ====
section
/-! DEFINITION. The configuration of spec/00_scope.md R9: what is fixed for the life of a run. -/

namespace Sys2Proof

/-- What a framing error outside Idle does (R9, R72, R103).  `resetToIdle` is the normative value. -/
inductive FePolicy where
  | resetToIdle
  | ignoreFlag
deriving DecidableEq, Repr

/-- The parameters of R9 that are not sampled from a port.  The legal ranges are `Config.wf`. -/
structure Config where
  /-- NumChannels -/
  numChannels : Nat
  /-- ActuatorMin -/
  actuatorMin : Nat
  /-- ActuatorMax -/
  actuatorMax : Nat
  /-- OutWidth, OPEN in the spec -/
  outWidth : Nat
  /-- NoiseThreshold -/
  noiseThreshold : Nat
  /-- FePolicy -/
  fePolicy : FePolicy
  /-- AddrCtrWidth -/
  addrCtrWidth : Nat
  /-- InitBuffer, OPEN in the spec: the reset contents of ChannelBuffer -/
  initBuffer : List Byte
deriving DecidableEq, Repr

/-- DmxMaxValue, fixed by the spec (R5, R9). -/
abbrev dmxMaxValue : Nat := 255

/-- DESIGN CHOICE (notes/assumptions/1.md, 2.md), unsafe: the configuration `State.reset` stands for.
NumChannels, ActuatorMin, ActuatorMax and NoiseThreshold are the spec's examples (R5), AddrCtrWidth
its default and FePolicy its normative value (R9); OutWidth and InitBuffer are the model's choice. -/
def Config.typical : Config where
  numChannels := 12
  actuatorMin := 23
  actuatorMax := 158
  outWidth := 8
  noiseThreshold := 10
  fePolicy := .resetToIdle
  addrCtrWidth := 16
  initBuffer := List.replicate 12 0#8

end Sys2Proof
end

