-- ==== Sys2Proof/Machine/State.lean ====
section
/-! DEFINITION. The architectural state of spec/10_state.md R21, the output events of R29, the reset of spec/70_reset_and_hazards.md R190, and why a step can stop. -/

namespace Sys2Proof.Machine

/-- rx_state, "exactly one of" four values (R22). -/
inductive RxState where
  | idle
  | breakDetected
  | frameStarted
  | receiving
deriving DecidableEq, Repr

/-- map_phase: the three phases of R28, and the reserved code 0b11, which a state may hold and MAP
has no step from (R136). -/
inductive MapPhase where
  | poll
  | clear
  | chan
  | reserved
deriving DecidableEq, Repr

/-- The output events of R29. -/
inductive OutEvent where
  | breakSeen
  | setPosition (idx value : Nat)
  | chanActive (idx : Nat) (active : Bool)
deriving DecidableEq, Repr

/-- ChannelBuffer as the cells that differ from InitBuffer, by index (notes/assumptions/2.md).
Its canonical form is `Memory.wf`. -/
abbrev Memory := List Host.Cell

/-- The state of the block: the tuple of R21, with the configuration no step writes (R23;
notes/assumptions/4.md), the schedule of statements still to run (R80; notes/assumptions/5.md) and
the output events emitted so far (R211; notes/assumptions/7.md). -/
structure State where
  cfg : Config
  rxState : RxState
  baseAddress : BaseAddr
  /-- AddrCtrWidth bits (R24); the bound is part of the invariant. -/
  addrCtr : Nat
  /-- FrameChannelCounter, FccWidth bits (R25). -/
  fcc : Nat
  buf : Memory
  updatePending : Bool
  mapPhase : MapPhase
  /-- IdxWidth bits (R28). -/
  mapIdx : Nat
  schedule : List SchedWord
  output : List OutEvent
deriving DecidableEq, Repr

/-- Why the model faults.  The block itself has no fault (R160); both are model errors that R113
shows unreachable from reset, and both are safe: the model stops where it could only go wrong. -/
inductive Fault where
  /-- Raised by BufWrite and BufRead for an index outside [0, NumChannels) (R53): by RX_FS_FIRST
  when NumChannels = 0 and by MAP_CHAN when map_idx ≥ NumChannels.  Safe. -/
  | bufferIndexOutOfRange
  /-- Raised by RX_RCV_STORE when fcc is outside [1, NumChannels − 1] (R108, I21).  Safe. -/
  | captureCountOutOfRange
deriving DecidableEq, Repr

/-- Why the model refuses a step. -/
inductive Refusal where
  /-- Raised by an instruction that has no meaning yet; no arm answers it.  Safe. -/
  | notModelled (mnemonic : String)
  /-- Raised by every step under a configuration outside the ranges of R9 (R10).  Safe. -/
  | illegalConfiguration
  /-- Raised by the step that reaches a schedule word with sw[9] = 1 and sw[8:0] ≠ 0 (R80).  Safe. -/
  | illegalScheduleWord
  /-- Raised by MAP_RESERVED: map_phase = 0b11 has no step (R136).  Safe. -/
  | reservedMapPhase
deriving DecidableEq, Repr

/-- The reset of R190 under a configuration, with the value on the `base_address` port (R30).
ChannelBuffer holds InitBuffer: memory with nothing listed. -/
def State.resetWith (c : Config) (basePort : BaseAddr) : State where
  cfg := c
  rxState := .idle
  baseAddress := basePort
  addrCtr := 0
  fcc := 0
  buf := []
  updatePending := false
  mapPhase := .poll
  mapIdx := 0
  schedule := []
  output := []

/-- The state right after reset.  DESIGN CHOICE (notes/assumptions/1.md, 2.md), unsafe: the spec
leaves the configuration and the port to the environment; this is reset under `Config.typical` with
BaseAddress 0, the configuration of the spec's worked example W1. -/
def State.reset : State := State.resetWith Config.typical 0#9

end Sys2Proof.Machine
end

