-- ==== Sys2Proof/Machine/Flags.lean ====
section
/-! DEFINITION. The block's one flag, update_pending, and the active-channel predicate (spec/10_state.md R27, spec/41_mapper.md R135). -/

namespace Sys2Proof.Machine

/-- RX sets update_pending; setting it when it is 1 leaves it 1 (R27, R107). -/
def setPending (s : State) : State := { s with updatePending := true }

/-- MAP clears update_pending, whatever its value (R27, R132). -/
def clearPending (s : State) : State := { s with updatePending := false }

/-- Active(v) = (v > NoiseThreshold), a strict unsigned comparison (R135). -/
def isActive (c : Config) (v : Byte) : Bool := decide (c.noiseThreshold < v.toNat)

end Sys2Proof.Machine
end

