-- ==== Sys2Proof/Syntax.lean ====
section
/-! DEFINITION. The steps of the two agents as instructions, one constructor per row of spec/opcode_table.json, and the statements of a schedule (spec/30_encoding.md R70, R73, R76, R80). -/

namespace Sys2Proof

/-- One received byte with its framing-error indicator (R70). -/
structure RxEvent where
  fe : Bool
  data : Byte
deriving DecidableEq, Repr

/-- A statement of a schedule: deliver an input event, or take one MAP step (R80). -/
inductive Statement where
  | rx (e : RxEvent)
  | map
deriving DecidableEq, Repr

/-- `BRK d`: an input event with fe = 1 (R80). -/
abbrev Statement.brk (d : Byte) : Statement := .rx ⟨true, d⟩

/-- `B d`: an input event with fe = 0 (R80). -/
abbrev Statement.byte (d : Byte) : Statement := .rx ⟨false, d⟩

/-- The instructions.  An RX instruction carries the data bits its row leaves free (`d` in R73), a
MAP instruction the copy of update_pending in its decode word (`f` in R76).  DESIGN CHOICE
(notes/assumptions/15.md), safe: the free bits are kept so that no bit of a decode word is lost,
whether or not the instruction's effect reads them. -/
inductive Instr where
  | rxIdleBreak (d : Byte)
  | rxIdleIgnore (d : Byte)
  | rxBdStart
  | rxBdAbort (d : Byte)
  | rxFsSkip (d : Byte)
  | rxFsFirst (d : Byte)
  | rxRcvStore (d : Byte)
  | rxBdFe (d : Byte)
  | rxFsFe (d : Byte)
  | rxRcvFe (d : Byte)
  | rxDefault
  | mapPoll (f : Bool)
  | mapClear (f : Bool)
  | mapChan (f : Bool)
  | mapReserved (f : Bool)
deriving DecidableEq, Repr

/-- What selects an instruction: an RX decode word with the guard g_hit (R72), or a MAP decode word (R75). -/
inductive DecodeWord where
  | rx (rw : RxWord) (gHit : Bool)
  | map (mw : MapWord)
deriving DecidableEq, Repr

/-- The row of spec/opcode_table.json an instruction belongs to. -/
def Instr.mnemonic : Instr → String
  | .rxIdleBreak _ => "RX_IDLE_BREAK"
  | .rxIdleIgnore _ => "RX_IDLE_IGNORE"
  | .rxBdStart => "RX_BD_START"
  | .rxBdAbort _ => "RX_BD_ABORT"
  | .rxFsSkip _ => "RX_FS_SKIP"
  | .rxFsFirst _ => "RX_FS_FIRST"
  | .rxRcvStore _ => "RX_RCV_STORE"
  | .rxBdFe _ => "RX_BD_FE"
  | .rxFsFe _ => "RX_FS_FE"
  | .rxRcvFe _ => "RX_RCV_FE"
  | .rxDefault => "RX_DEFAULT"
  | .mapPoll _ => "MAP_POLL"
  | .mapClear _ => "MAP_CLEAR"
  | .mapChan _ => "MAP_CHAN"
  | .mapReserved _ => "MAP_RESERVED"

end Sys2Proof
end

