-- ==== Sys2Proof/WellFormed.lean ====
section
/-! DEFINITION. Which configurations and instructions are legal (spec/00_scope.md R9, R10; spec/30_encoding.md R73). -/

namespace Sys2Proof

/-- The ranges of R9.  BaseAddress needs no check: it is a 9-bit value (R23). -/
def Config.wf (c : Config) : Bool :=
  decide (1 ≤ c.numChannels) && decide (c.numChannels ≤ 512)
    && decide (c.actuatorMin ≤ c.actuatorMax)
    && decide (c.actuatorMax < 2 ^ c.outWidth)
    && decide (c.noiseThreshold ≤ 255)
    && decide (10 ≤ c.addrCtrWidth)
    && decide (c.initBuffer.length = c.numChannels)

/-- RX_BD_ABORT is the row for data ≠ 0x00 (R73, R105); every other operand value is legal. -/
def Instr.wf : Instr → Bool
  | .rxBdAbort d => d != 0#8
  | .rxIdleBreak _ | .rxIdleIgnore _ | .rxBdStart | .rxFsSkip _ | .rxFsFirst _ | .rxRcvStore _
  | .rxBdFe _ | .rxFsFe _ | .rxRcvFe _ | .rxDefault
  | .mapPoll _ | .mapClear _ | .mapChan _ | .mapReserved _ => true

end Sys2Proof
end

