-- ==== Sys2Proof/Decode.lean ====
section
/-! DEFINITION. Decoding and encoding: event words, schedule words, RX and MAP decode words, and the opcode maps of spec/30_encoding.md as tables (R70, R72 to R76, R80). -/

namespace Sys2Proof

/-- Why a word is rejected.  The spec rejects one kind of word only, a MAP schedule word with
sw[8:0] ≠ 0 (R80); the other two are about the numbers `decodeTableWord` is given. -/
inductive DecodeError where
  /-- sw[9] = 1 and sw[8:0] ≠ 0 (R80, I22). -/
  | illegalMapStatement
  /-- a table word with a bit above the 11 bits of an RX decode word and its guard bit. -/
  | rxWordTooWide
  /-- a table word with a bit above the 3 bits of a MAP decode word. -/
  | mapWordTooWide
deriving DecidableEq, Repr

/-- The event of an input event word (R70): every one of the 512 words is legal. -/
def decodeEvent (w : EventWord) : RxEvent := ⟨w.getLsbD 8, w.extractLsb' 0 8⟩

/-- The input event word `{fe, data[7:0]}` (R70). -/
def encodeEvent (e : RxEvent) : EventWord := BitVec.ofBool e.fe ++ e.data

/-- The statement of a schedule word, or why it is illegal (R80). -/
def decodeStatement (w : SchedWord) : Except DecodeError Statement :=
  if w.getLsbD 9 then
    if w.extractLsb' 0 9 = 0#9 then .ok .map else .error .illegalMapStatement
  else .ok (.rx (decodeEvent (w.extractLsb' 0 9)))

/-- The schedule word of a statement (R80). -/
def encodeStatement : Statement → SchedWord
  | .rx e => BitVec.ofBool false ++ encodeEvent e
  | .map => 0x200#10

/-- The data byte of an RX decode word, rw[7:0] (R72). -/
def rxData (rw : RxWord) : Byte := rw.extractLsb' 0 8

/-- The RX decoder: rw[10:8] chooses the row, with data = 0x00 and g_hit where R73 asks for them.
It is total, and `rxDefault` is never its answer (R74, R112). -/
def decodeRx (rw : RxWord) (gHit : Bool) : Instr :=
  match rw.getLsbD 10, rw.getLsbD 9, rw.getLsbD 8 with
  | false, false, true => .rxIdleBreak (rxData rw)
  | false, false, false => .rxIdleIgnore (rxData rw)
  | false, true, false => if rxData rw = 0#8 then .rxBdStart else .rxBdAbort (rxData rw)
  | true, false, false => if gHit then .rxFsFirst (rxData rw) else .rxFsSkip (rxData rw)
  | true, true, false => .rxRcvStore (rxData rw)
  | false, true, true => .rxBdFe (rxData rw)
  | true, false, true => .rxFsFe (rxData rw)
  | true, true, true => .rxRcvFe (rxData rw)

/-- The MAP decoder: mw[2:1] chooses the row (R76). -/
def decodeMap (mw : MapWord) : Instr :=
  match mw.getLsbD 2, mw.getLsbD 1 with
  | false, false => .mapPoll (mw.getLsbD 0)
  | false, true => .mapClear (mw.getLsbD 0)
  | true, false => .mapChan (mw.getLsbD 0)
  | true, true => .mapReserved (mw.getLsbD 0)

/-- The decoder of both agents (R73, R76). -/
def decode : DecodeWord → Instr
  | .rx rw gHit => decodeRx rw gHit
  | .map mw => decodeMap mw

/-- An RX decode word from the bits its row fixes, rw[10:8], and the data byte. -/
def rxWordOf (row : BitVec 3) (d : Byte) : RxWord := row ++ d

/-- A MAP decode word from its phase code and its flag bit. -/
def mapWordOf (phase : BitVec 2) (f : Bool) : MapWord := phase ++ BitVec.ofBool f

/-- The decode word that selects an instruction (R73, R76); RX_DEFAULT has none (R74, R112).
Where the row has no guard, gHit is written false. -/
def encode : Instr → Option DecodeWord
  | .rxIdleBreak d => some (.rx (rxWordOf 0b001#3 d) false)
  | .rxIdleIgnore d => some (.rx (rxWordOf 0b000#3 d) false)
  | .rxBdStart => some (.rx 0x200#11 false)
  | .rxBdAbort d => some (.rx (rxWordOf 0b010#3 d) false)
  | .rxFsSkip d => some (.rx (rxWordOf 0b100#3 d) false)
  | .rxFsFirst d => some (.rx (rxWordOf 0b100#3 d) true)
  | .rxRcvStore d => some (.rx (rxWordOf 0b110#3 d) false)
  | .rxBdFe d => some (.rx (rxWordOf 0b011#3 d) false)
  | .rxFsFe d => some (.rx (rxWordOf 0b101#3 d) false)
  | .rxRcvFe d => some (.rx (rxWordOf 0b111#3 d) false)
  | .rxDefault => none
  | .mapPoll f => some (.map (mapWordOf 0b00#2 f))
  | .mapClear f => some (.map (mapWordOf 0b01#2 f))
  | .mapChan f => some (.map (mapWordOf 0b10#2 f))
  | .mapReserved f => some (.map (mapWordOf 0b11#2 f))

/-- A row of the RX opcode map (R73).  `excluded` is the word the RX_BD_ABORT row leaves out and
`guard` the value of g_hit the row asks for, where it asks for one. -/
structure RxRow where
  mnemonic : String
  mask : RxWord
  pattern : RxWord
  excluded : Option RxWord
  guard : Option Bool
deriving DecidableEq, Repr

/-- The RX opcode map of R73, in its order, less the RX_DEFAULT row, which has no word. -/
def rxTable : List RxRow :=
  [ ⟨"RX_IDLE_BREAK", 0x700, 0x100, none, none⟩,
    ⟨"RX_IDLE_IGNORE", 0x700, 0x000, none, none⟩,
    ⟨"RX_BD_START", 0x7FF, 0x200, none, none⟩,
    ⟨"RX_BD_ABORT", 0x700, 0x200, some 0x200, none⟩,
    ⟨"RX_FS_SKIP", 0x700, 0x400, none, some false⟩,
    ⟨"RX_FS_FIRST", 0x700, 0x400, none, some true⟩,
    ⟨"RX_RCV_STORE", 0x700, 0x600, none, none⟩,
    ⟨"RX_BD_FE", 0x700, 0x300, none, none⟩,
    ⟨"RX_FS_FE", 0x700, 0x500, none, none⟩,
    ⟨"RX_RCV_FE", 0x700, 0x700, none, none⟩ ]

/-- Whether a row of the RX opcode map applies to (rw, g_hit) (R73). -/
def RxRow.applies (r : RxRow) (rw : RxWord) (gHit : Bool) : Bool :=
  (rw &&& r.mask == r.pattern) && (r.excluded != some rw) && r.guard.all (· == gHit)

/-- A row of the MAP opcode map (R76). -/
structure MapRow where
  mnemonic : String
  mask : MapWord
  pattern : MapWord
deriving DecidableEq, Repr

/-- The MAP opcode map of R76. -/
def mapTable : List MapRow :=
  [ ⟨"MAP_POLL", 0b110, 0b000⟩,
    ⟨"MAP_CLEAR", 0b110, 0b010⟩,
    ⟨"MAP_CHAN", 0b110, 0b100⟩,
    ⟨"MAP_RESERVED", 0b110, 0b110⟩ ]

/-- Whether a row of the MAP opcode map applies to mw (R76). -/
def MapRow.applies (r : MapRow) (mw : MapWord) : Bool := mw &&& r.mask == r.pattern

/-- The decode word a number stands for, as spec/opcode_table.json numbers a row's bits.  DESIGN
CHOICE (notes/assumptions/13.md), safe: up to 8 bits it is a MAP decode word; above, an RX decode
word in bits 10..0, with bit 11, which the table gives no row, carrying g_hit, since two rows share
one word and only g_hit tells them apart (R73). -/
def tableWord (nbits w : Nat) : Except DecodeError DecodeWord :=
  if nbits ≤ 8 then
    if w < 2 ^ 3 then .ok (.map (BitVec.ofNat 3 w)) else .error .mapWordTooWide
  else
    if w < 2 ^ 12 then .ok (.rx (BitVec.ofNat 11 w) (w.testBit 11)) else .error .rxWordTooWide

/-- The instruction of a table word, or why there is none. -/
def decodeTable (nbits w : Nat) : Except DecodeError Instr :=
  match tableWord nbits w with
  | .ok dw => .ok (decode dw)
  | .error e => .error e

/-- `decodeTable` with its reason for a rejection dropped. -/
def decodeTableWord (nbits w : Nat) : Option Instr := (decodeTable nbits w).toOption

end Sys2Proof
end

