-- ==== Sys2Proof/Machine/Operands.lean ====
section
/-! DEFINITION. How operands are formed: state codes, StartAddress, the guard g_hit, the decode words, the register widths and the linear map (spec/30_encoding.md R72, R75, R77; spec/41_mapper.md R133). -/

namespace Sys2Proof.Machine

/-- The 2-bit code of rx_state (R22). -/
def rxCode : RxState → BitVec 2
  | .idle => 0b00#2
  | .breakDetected => 0b01#2
  | .frameStarted => 0b10#2
  | .receiving => 0b11#2

/-- The state of a 2-bit code: all four codes are used (R22). -/
def rxOfCode (c : BitVec 2) : RxState :=
  match c.getLsbD 1, c.getLsbD 0 with
  | false, false => .idle
  | false, true => .breakDetected
  | true, false => .frameStarted
  | true, true => .receiving

/-- The 2-bit code of map_phase (R28). -/
def phaseCode : MapPhase → BitVec 2
  | .poll => 0b00#2
  | .clear => 0b01#2
  | .chan => 0b10#2
  | .reserved => 0b11#2

/-- The phase of a 2-bit code (R28). -/
def phaseOfCode (c : BitVec 2) : MapPhase :=
  match c.getLsbD 1, c.getLsbD 0 with
  | false, false => .poll
  | false, true => .clear
  | true, false => .chan
  | true, true => .reserved

/-- StartAddress = zext_10(base_address) + 1, a 10-bit value (R30, R77). -/
def startAddress (s : State) : StartAddr := s.baseAddress.zeroExtend 10 + 1#10

/-- (addr_ctr + 1) mod 2^AddrCtrWidth (R72, R106). -/
def nextAddr (s : State) : Nat := (s.addrCtr + 1) % 2 ^ s.cfg.addrCtrWidth

/-- The guard of the FrameStarted rows, with StartAddress zero-extended to AddrCtrWidth bits (R72, R77). -/
def gHit (s : State) : Bool := nextAddr s == (startAddress s).toNat

/-- fe', the effective framing-error bit (R72). -/
def effectiveFe (s : State) (fe : Bool) : Bool :=
  match s.cfg.fePolicy, s.rxState with
  | .resetToIdle, _ => fe
  | .ignoreFlag, .idle => fe
  | .ignoreFlag, .breakDetected => false
  | .ignoreFlag, .frameStarted => false
  | .ignoreFlag, .receiving => false

/-- The RX decode word of an event in a state: `{rx_state[1:0], fe', data[7:0]}` (R72). -/
def rxWord (s : State) (e : RxEvent) : RxWord :=
  rxCode s.rxState ++ BitVec.ofBool (effectiveFe s e.fe) ++ e.data

/-- The MAP decode word of a state: `{map_phase[1:0], update_pending}` (R75). -/
def mapWord (s : State) : MapWord := phaseCode s.mapPhase ++ BitVec.ofBool s.updatePending

/-- FccWidth: the least w with 2^w > NumChannels (R25). -/
def fccWidth (c : Config) : Nat := if c.numChannels = 0 then 0 else Nat.log2 c.numChannels + 1

/-- IdxWidth: the least w with 2^w ≥ NumChannels, and at least 1 (R28). -/
def idxWidth (c : Config) : Nat :=
  if c.numChannels ≤ 2 then 1 else Nat.log2 (c.numChannels - 1) + 1

/-- clamp(v, lo, hi) = min(max(v, lo), hi) on the naturals (R11). -/
def clamp (v lo hi : Nat) : Nat := min (max v lo) hi

/-- map(v), the linear map with floor division, exact over the naturals (R133, R140). -/
def mapValue (c : Config) (v : Byte) : Nat :=
  clamp (c.actuatorMin + v.toNat * (c.actuatorMax - c.actuatorMin) / dmxMaxValue)
    c.actuatorMin c.actuatorMax

/-- What element i of ChannelBuffer holds at reset, InitBuffer[i] (R26).  InitBuffer has
NumChannels elements (R9), and an index past them is never read. -/
def initByte (c : Config) (i : Nat) : Byte := c.initBuffer.getD i 0#8

end Sys2Proof.Machine
end

