-- ==== Sys2Proof/Machine/Ops.lean ====
section
/-! DEFINITION. The shared operations: ChannelBuffer as memory, BufRead and BufWrite, emitting an output event, and capturing one byte of the address window (spec/00_scope.md R11, spec/20_memory.md R53).  The block raises no exception (R160), so there is no exception entry and no return from one here; the receive interrupt saves no state and returns implicitly (R168, R169). -/

namespace Sys2Proof.Machine

/-- The byte a memory lists for an index, if any. -/
def Memory.find (a : Nat) : Memory → Option Byte
  | [] => none
  | c :: m => if c.1 = a then some c.2 else Memory.find a m

/-- The byte at an index: the listed one, or InitBuffer's (R26; notes/assumptions/2.md). -/
def Memory.read (c : Config) (m : Memory) (a : Nat) : Byte := (Memory.find a m).getD (initByte c a)

/-- A memory without the cells at an index. -/
def Memory.erase (a : Nat) (m : Memory) : Memory := m.filter fun c => c.1 != a

/-- A memory with a cell put before the first cell of a greater index. -/
def Memory.insert (a : Nat) (v : Byte) : Memory → Memory
  | [] => [(a, v)]
  | c :: m => if a < c.1 then (a, v) :: c :: m else c :: Memory.insert a v m

/-- Writing one byte.  Writing what an unlisted index reads as removes the cell. -/
def Memory.write (c : Config) (m : Memory) (a : Nat) (v : Byte) : Memory :=
  if v = initByte c a then Memory.erase a m else Memory.insert a v (Memory.erase a m)

/-- Indexes strictly rising, each above a lower bound. -/
def Memory.risesFrom : Nat → Memory → Bool
  | _, [] => true
  | lo, c :: m => decide (lo ≤ c.1) && Memory.risesFrom (c.1 + 1) m

/-- The canonical form: indexes strictly rising, every index below NumChannels, and no cell equal to
what an unlisted index reads as. -/
def Memory.wf (c : Config) (m : Memory) : Bool :=
  Memory.risesFrom 0 m && m.all fun x => decide (x.1 < c.numChannels) && (x.2 != initByte c x.1)

/-- buf[i] as a function of the state, for every index. -/
def State.byteAt (s : State) (i : Nat) : Byte := Memory.read s.cfg s.buf i

/-- BufRead(i), which requires i < NumChannels (R53). -/
def bufRead (i : Nat) (s : State) : Option Byte :=
  if i < s.cfg.numChannels then some (s.byteAt i) else none

/-- BufWrite(i, v), which requires i < NumChannels; any other index is a model fault (R53). -/
def bufWrite (i : Nat) (v : Byte) (s : State) : Host.Outcome State Fault Refusal :=
  if i < s.cfg.numChannels then .next { s with buf := Memory.write s.cfg s.buf i v }
  else .fault .bufferIndexOutOfRange

/-- `emit`: append output events in program order (R11). -/
def emit (es : List OutEvent) (s : State) : State := { s with output := s.output ++ es }

/-- `rx_state <- r` (R11). -/
def gotoRx (r : RxState) (s : State) : State := { s with rxState := r }

/-- BufWrite(i, d); fcc <- i + 1; then Idle once fcc = NumChannels and Receiving before: what
RX_FS_FIRST does at index 0 and RX_RCV_STORE at index fcc (R107, R108, conflict C5). -/
def captureByte (i : Nat) (d : Byte) (s : State) : Host.Outcome State Fault Refusal :=
  match bufWrite i d s with
  | .next t =>
    .next (gotoRx (if i + 1 = t.cfg.numChannels then .idle else .receiving) { t with fcc := i + 1 })
  | .fault r => .fault r
  | .refused r => .refused r

/-- The two events MAP_CHAN emits for channel i holding v, SetPosition first (R134). -/
def channelEvents (c : Config) (i : Nat) (v : Byte) : List OutEvent :=
  [.setPosition i (mapValue c v), .chanActive i (isActive c v)]

end Sys2Proof.Machine
end

