-- ==== Sys2Proof/Machine/Mapper.lean ====
section
/-! DEFINITION. The meanings of the MAP instructions (spec/41_mapper.md). -/

namespace Sys2Proof.Machine

/-- MAP_POLL (R131): with the flag 0 nothing happens, with the flag 1 the phase becomes Clear. -/
def execMapPoll (s : State) : Host.Outcome State Fault Refusal :=
  .next (if s.updatePending then { s with mapPhase := .clear } else s)

/-- MAP_CLEAR (R132). -/
def execMapClear (s : State) : Host.Outcome State Fault Refusal :=
  .next (clearPending { s with mapIdx := 0, mapPhase := .chan })

/-- After channel i: the next channel, or back to Poll after the last one (R134). -/
def advanceChannel (s : State) : State :=
  if s.mapIdx + 1 < s.cfg.numChannels then { s with mapIdx := s.mapIdx + 1 }
  else { s with mapPhase := .poll, mapIdx := 0 }

/-- MAP_CHAN (R134): read buf[map_idx], emit its two events, go on to the next channel. -/
def execMapChan (s : State) : Host.Outcome State Fault Refusal :=
  match bufRead s.mapIdx s with
  | some v => .next (advanceChannel (emit (channelEvents s.cfg s.mapIdx v) s))
  | none => .fault .bufferIndexOutOfRange

/-- MAP_RESERVED (R136): the reserved phase has no step. -/
def execMapReserved (_ : State) : Host.Outcome State Fault Refusal := .refused .reservedMapPhase

end Sys2Proof.Machine
end

