-- ==== Sys2Proof/Machine/Receiver.lean ====
section
/-! DEFINITION. The meanings of the RX instructions (spec/40_receiver.md). -/

namespace Sys2Proof.Machine

/-- RX_IDLE_BREAK (R101): the data byte is ignored. -/
def execRxIdleBreak (s : State) : Host.Outcome State Fault Refusal :=
  .next (gotoRx .breakDetected (emit [.breakSeen] { s with addrCtr := 0 }))

/-- RX_IDLE_IGNORE (R102): no state change, no event. -/
def execRxIdleIgnore (s : State) : Host.Outcome State Fault Refusal := .next s

/-- RX_BD_START (R104). -/
def execRxBdStart (s : State) : Host.Outcome State Fault Refusal := .next (gotoRx .frameStarted s)

/-- RX_BD_ABORT (R105): the frame is discarded silently. -/
def execRxBdAbort (s : State) : Host.Outcome State Fault Refusal := .next (gotoRx .idle s)

/-- RX_FS_SKIP (R106): a slot before the address window, counted and discarded. -/
def execRxFsSkip (s : State) : Host.Outcome State Fault Refusal :=
  .next { s with addrCtr := nextAddr s }

/-- RX_FS_FIRST (R107): the slot StartAddress goes to buf[0] and update_pending is set. -/
def execRxFsFirst (d : Byte) (s : State) : Host.Outcome State Fault Refusal :=
  captureByte 0 d (setPending { s with addrCtr := nextAddr s })

/-- RX_RCV_STORE (R108): the byte goes to buf[fcc]; fcc outside [1, NumChannels − 1] is a model
fault (R113, I21). -/
def execRxRcvStore (d : Byte) (s : State) : Host.Outcome State Fault Refusal :=
  if 1 ≤ s.fcc ∧ s.fcc < s.cfg.numChannels then captureByte s.fcc d s
  else .fault .captureCountOutOfRange

/-- RX_BD_FE (R109): a framing error in BreakDetected. -/
def execRxBdFe (s : State) : Host.Outcome State Fault Refusal := .next (gotoRx .idle s)

/-- RX_FS_FE (R110): a framing error in FrameStarted. -/
def execRxFsFe (s : State) : Host.Outcome State Fault Refusal := .next (gotoRx .idle s)

/-- RX_RCV_FE (R111): a framing error in Receiving; the bytes already stored stay (conflict C4). -/
def execRxRcvFe (s : State) : Host.Outcome State Fault Refusal := .next (gotoRx .idle s)

/-- RX_DEFAULT (R112): an unrecognized state goes to Idle.  No word selects it under the 2-bit
encoding (notes/assumptions/8.md). -/
def execRxDefault (s : State) : Host.Outcome State Fault Refusal := .next (gotoRx .idle s)

end Sys2Proof.Machine
end

