-- ==== Sys2Proof/Machine/Dispatch.lean ====
section
/-! DEFINITION. The dispatch: one arm per instruction. -/

namespace Sys2Proof.Machine

-- One direct call of a meaning per row of spec/opcode_table.json.
def exec (i : Instr) (s : State) : Host.Outcome State Fault Refusal :=
  match i with
  | .rxIdleBreak _ => Sys2Proof.Machine.execRxIdleBreak s
  | .rxIdleIgnore _ => Sys2Proof.Machine.execRxIdleIgnore s
  | .rxBdStart => Sys2Proof.Machine.execRxBdStart s
  | .rxBdAbort _ => Sys2Proof.Machine.execRxBdAbort s
  | .rxFsSkip _ => Sys2Proof.Machine.execRxFsSkip s
  | .rxFsFirst d => Sys2Proof.Machine.execRxFsFirst d s
  | .rxRcvStore d => Sys2Proof.Machine.execRxRcvStore d s
  | .rxBdFe _ => Sys2Proof.Machine.execRxBdFe s
  | .rxFsFe _ => Sys2Proof.Machine.execRxFsFe s
  | .rxRcvFe _ => Sys2Proof.Machine.execRxRcvFe s
  | .rxDefault => Sys2Proof.Machine.execRxDefault s
  | .mapPoll _ => Sys2Proof.Machine.execMapPoll s
  | .mapClear _ => Sys2Proof.Machine.execMapClear s
  | .mapChan _ => Sys2Proof.Machine.execMapChan s
  | .mapReserved _ => Sys2Proof.Machine.execMapReserved s

end Sys2Proof.Machine
end

