-- ==== Sys2Proof/Machine/Schedule.lean ====
section
/-! DEFINITION. Which instruction a step runs: taking the next statement of the schedule and forming its decode word; the pseudo-statements; and how one decode word is made the next to run (spec/30_encoding.md R72 to R81, spec/40_receiver.md R100, spec/41_mapper.md R130, spec/60_exceptions.md R164 to R169). -/

namespace Sys2Proof.Machine

/-- The instruction an input event selects (R100). -/
def selectRx (e : RxEvent) (s : State) : Instr := decodeRx (rxWord s e) (gHit s)

/-- The instruction a MAP step selects (R130). -/
def selectMap (s : State) : Instr := decodeMap (mapWord s)

/-- The instruction the next step runs and the state it runs in: the next statement is consumed, one
per step (R80, R164).  With no statement left the environment has no undelivered event, and the only
enabled step is a MAP step (R166, R211; DEDUCED, safe, notes/assumptions/6.md).  A configuration
outside R9 is refused (R10), and so is an illegal schedule word (R80). -/
def fetch (s : State) : Except Refusal (Instr × State) :=
  if s.cfg.wf then
    match s.schedule with
    | [] => .ok (selectMap s, s)
    | w :: rest =>
      match decodeStatement w with
      | .ok (.rx e) => .ok (selectRx e s, { s with schedule := rest })
      | .ok .map => .ok (selectMap s, { s with schedule := rest })
      | .error _ => .error .illegalScheduleWord
  else .error .illegalConfiguration

/-- `FRAME sc: d1 … dn` (R81): BRK 0x00, B sc, then one B per data slot. -/
def frameStatements (sc : Byte) (ds : List Byte) : List Statement :=
  .brk 0#8 :: .byte sc :: ds.map .byte

/-- `DMX d1 … dn` expands to `FRAME 0x00: d1 … dn` (R81). -/
def dmxStatements (ds : List Byte) : List Statement := frameStatements 0#8 ds

/-- `CYCLE` from a poll with no RX statement inside (R81): one MAP if the flag is 0, else
NumChannels + 2 of them. -/
def cycleStatements (c : Config) (flag : Bool) : List Statement :=
  List.replicate (if flag then c.numChannels + 2 else 1) .map

/-- A schedule from statements (R80). -/
def scheduleOf (sts : List Statement) : List SchedWord := sts.map encodeStatement

/-- The addr_ctr that makes g_hit what a decode word asks for: one before StartAddress for a hit,
StartAddress itself for a miss (R72). -/
def addrForGuard (s : State) (hit : Bool) : Nat :=
  if hit then (startAddress s).toNat - 1 else (startAddress s).toNat

/-- Make an RX decode word the one the next step forms: rx_state from its code, the event put first
in the schedule; and only where the word needs it, addr_ctr for the guard, FePolicy for fe' = 1
outside Idle (R72), and fcc within the range R113 gives Receiving (notes/assumptions/14.md). -/
def placeRx (rw : RxWord) (hit : Bool) (s : State) : State :=
  let r := rxOfCode (rw.extractLsb' 9 2)
  let fe := rw.getLsbD 8
  { s with
    cfg := if fe ∧ r ≠ .idle then { s.cfg with fePolicy := .resetToIdle } else s.cfg
    rxState := r
    addrCtr := if r = .frameStarted then addrForGuard s hit else s.addrCtr
    fcc := if r = .receiving ∧ ¬ (1 ≤ s.fcc ∧ s.fcc < s.cfg.numChannels) then 1 else s.fcc
    schedule := encodeStatement (.rx ⟨fe, rxData rw⟩) :: s.schedule }

/-- Make a MAP decode word the one the next step forms: map_phase and update_pending from its bits,
and a MAP statement put first in the schedule (R75). -/
def placeMap (mw : MapWord) (s : State) : State :=
  { s with
    mapPhase := phaseOfCode (mw.extractLsb' 1 2)
    updatePending := mw.getLsbD 0
    schedule := encodeStatement .map :: s.schedule }

/-- The state whose next step runs the instruction of a table word (see `tableWord`); a rejected
word changes nothing. -/
def placeTableWord (nbits w : Nat) (s : State) : State :=
  match tableWord nbits w with
  | .ok (.rx rw hit) => placeRx rw hit s
  | .ok (.map mw) => placeMap mw s
  | .error _ => s

end Sys2Proof.Machine
end

