-- ==== Sys2Proof/Machine/Step.lean ====
section
/-! DEFINITION. One step of the block: take the next statement, run the instruction it selects. -/

namespace Sys2Proof.Machine

/-- One atomic step (R12): of RX if the next statement delivers an event, of MAP otherwise. -/
def step (s : State) : Host.Outcome State Fault Refusal :=
  match fetch s with
  | .ok (i, t) => exec i t
  | .error r => .refused r

/-- `s` with one instruction of the opcode table placed so that the next step runs it
(`placeTableWord`, notes/assumptions/14.md). -/
def State.withFetchWord (s : State) (nbits w : Nat) : State := placeTableWord nbits w s

/-- `k` steps, stopping at the first fault or refusal: a finite run (R211). -/
def run : Nat → State → Host.Outcome State Fault Refusal
  | 0, s => .next s
  | k + 1, s =>
    match step s with
    | .next t => run k t
    | .fault r => .fault r
    | .refused r => .refused r

end Sys2Proof.Machine
end

