-- ==== Sys2Proof/Safety.lean ====
section
/-! DEFINITION. The terms claims are made in: the invariant of every reachable state, finite and infinite runs, quiescence, the views of the two agents, delivering statements to a state, and the premises for frame claims. -/

namespace Sys2Proof.Machine

/-- What R29 and R163 say of an output event: a channel index below NumChannels, a target within
[ActuatorMin, ActuatorMax] that fits in OutWidth bits. -/
def OutEvent.inRange (c : Config) : OutEvent → Prop
  | .breakSeen => True
  | .setPosition idx value =>
    idx < c.numChannels ∧ c.actuatorMin ≤ value ∧ value ≤ c.actuatorMax ∧ value < 2 ^ c.outWidth
  | .chanActive idx _ => idx < c.numChannels

/-- The invariant of every state reachable from reset (R113, R136, R137), with the canonical form of
the memory and the widths of R24, R25 and R28. -/
structure State.Inv (s : State) : Prop where
  cfg_legal : s.cfg.wf = true
  addrCtr_fits : s.addrCtr < 2 ^ s.cfg.addrCtrWidth
  /-- R113 (b) -/
  fcc_le : s.fcc ≤ s.cfg.numChannels
  /-- R113 (a) -/
  receiving : s.rxState = .receiving → 1 ≤ s.fcc ∧ s.fcc ≤ s.cfg.numChannels - 1
  /-- R113 (d): leaving Idle takes an RX_IDLE_BREAK, and each emits BreakSeen. -/
  break_seen : s.rxState ≠ .idle → OutEvent.breakSeen ∈ s.output
  /-- R101, R104: the counter is 0 until the first slot after the start code. -/
  addrCtr_zero : s.rxState = .breakDetected → s.addrCtr = 0
  /-- R106, R107: in FrameStarted the slot StartAddress has not come yet. -/
  before_window : s.rxState = .frameStarted → s.addrCtr < (startAddress s).toNat
  /-- R136 -/
  phase_legal : s.mapPhase ≠ .reserved
  /-- R140 -/
  mapIdx_lt : s.mapIdx < s.cfg.numChannels
  /-- R131, R27: MAP alone clears the flag, so it is still 1 when MAP is about to clear it. -/
  clear_pending : s.mapPhase = .clear → s.updatePending = true
  buf_canonical : Memory.wf s.cfg s.buf = true
  /-- R29, R163 -/
  output_inRange : ∀ e ∈ s.output, e.inRange s.cfg

/-- A schedule without illegal words (R80). -/
def legalSchedule (ws : List SchedWord) : Prop := ∀ w ∈ ws, ∃ st, decodeStatement w = .ok st

/-- The states of the runs of R211: steps from the reset of any legal configuration, any value on
the base_address port and any schedule. -/
inductive Reachable : State → Prop where
  | start (c : Config) (basePort : BaseAddr) (ws : List SchedWord) (h : c.wf = true) :
      Reachable { State.resetWith c basePort with schedule := ws }
  | step {s t : State} (hs : Reachable s) (h : step s = .next t) : Reachable t

/-- R211: no undelivered input event (what is left of the schedule, if anything, is MAP steps), MAP
at Poll, the flag 0. -/
def State.quiescent (s : State) : Prop :=
  (∀ w ∈ s.schedule, decodeStatement w = .ok .map) ∧ s.mapPhase = .poll ∧ s.updatePending = false

/-- Put statements before what is left of the schedule. -/
def State.feed (sts : List Statement) (s : State) : State :=
  { s with schedule := scheduleOf sts ++ s.schedule }

/-- An infinite run from `s` (R211): each step runs the next statement of an endless interleaving and
answers the next state.  A finite list of schedule words in State cannot hold such a run, so the
statements are fed one by one. -/
structure InfiniteRun (s : State) (sts : Nat → Statement) (σ : Nat → State) : Prop where
  start : σ 0 = s
  next : ∀ n, step ((σ n).feed [sts n]) = .next (σ (n + 1))

/-- Weak fairness of MAP steps (R166): a MAP step is enabled in every reachable state, so it is
taken again and again. -/
def mapFair (sts : Nat → Statement) : Prop := ∀ n, ∃ m, n ≤ m ∧ sts m = .map

/-- What the next `k` steps run: each instruction with the state it runs in, up to the first step
that stops. -/
def history : Nat → State → List (Instr × State)
  | 0, _ => []
  | k + 1, s =>
    match fetch s with
    | .ok (i, t) =>
      (i, t) :: match exec i t with
        | .next u => history k u
        | .fault _ => []
        | .refused _ => []
    | .error _ => []

/-- No MAP_CLEAR among these steps. -/
def noClear (h : List (Instr × State)) : Prop := ∀ p ∈ h, ∀ f, p.1 ≠ .mapClear f

/-- The input events of a list of statements, in order. -/
def rxEvents : List Statement → List RxEvent
  | [] => []
  | .rx e :: sts => e :: rxEvents sts
  | .map :: sts => rxEvents sts

/-- Events with fe = 0 from data bytes. -/
def bytes (ds : List Byte) : List RxEvent := ds.map fun d => ⟨false, d⟩

/-- What RX owns or reads of the state (R21): everything it can depend on. -/
structure RxView where
  cfg : Config
  baseAddress : BaseAddr
  rxState : RxState
  addrCtr : Nat
  fcc : Nat
  buf : Memory
deriving DecidableEq, Repr

def State.rxView (s : State) : RxView :=
  ⟨s.cfg, s.baseAddress, s.rxState, s.addrCtr, s.fcc, s.buf⟩

/-- What MAP owns or reads of the state (R21, R77): everything it can depend on. -/
structure MapView where
  cfg : Config
  buf : Memory
  updatePending : Bool
  mapPhase : MapPhase
  mapIdx : Nat
deriving DecidableEq, Repr

def State.mapView (s : State) : MapView :=
  ⟨s.cfg, s.buf, s.updatePending, s.mapPhase, s.mapIdx⟩

/-- The events of one whole cycle over a buffer (R139). -/
def cycleEvents (c : Config) (b : Nat → Byte) : List OutEvent :=
  (List.range c.numChannels).flatMap fun i => channelEvents c i (b i)

/-- At least StartAddress − 1 + NumChannels data slots (R115, R205). -/
def coversWindow (s : State) (ds : List Byte) : Prop :=
  (startAddress s).toNat - 1 + s.cfg.numChannels ≤ ds.length

/-- Slot StartAddress + i of a frame's data bytes, whose slots are numbered from 1 (R51, R115). -/
def windowByte (s : State) (ds : List Byte) (i : Nat) : Byte :=
  ds.getD ((startAddress s).toNat - 1 + i) 0#8

/-! ## The premises for frame claims (R205) -/

/-- A DMX frame as the line carries it: the break, whose byte is not examined (R71), the start code,
and the data slots up to the next break. -/
structure Frame where
  brk : Byte
  startCode : Byte
  slots : List Byte
deriving DecidableEq, Repr

/-- The events of a frame whose break is one event with fe = 1 and whose other events have fe = 0. -/
def Frame.events (f : Frame) : List RxEvent := ⟨true, f.brk⟩ :: ⟨false, f.startCode⟩ :: bytes f.slots

/-- The frame as statements of a schedule. -/
def Frame.statements (f : Frame) : List Statement := f.events.map .rx

/-- OneFePerBreak: the input sequence is these frames, every break exactly one event with fe = 1 and
no other event with fe = 1.  Bytes may come before the first break (R192).
DESIGN CHOICE (safe, log entry 22): R205 does not speak of a finite input that ends on a break event;
every frame here has its start code, so such an input does not meet the premise. -/
def oneFePerBreak (frames : List Frame) (es : List RxEvent) : Prop :=
  ∃ ds, es = bytes ds ++ frames.flatMap Frame.events

/-- NullStartCode: the event after each break has data = 0x00. -/
def nullStartCode (frames : List Frame) : Prop := ∀ f ∈ frames, f.startCode = 0#8

/-- FrameCoversWindow: every frame has the data slots to fill the window before the next break.
DESIGN CHOICE (safe, log entry 22): R205 does not speak of a finite input that ends inside its last
frame, where no next break comes; the last frame, too, must cover the window here. -/
def frameCoversWindow (s : State) (frames : List Frame) : Prop :=
  ∀ f ∈ frames, coversWindow s f.slots

/-- The RX instructions of a frame whose window capture has not begun, and those that break it off:
all but RX_RCV_STORE and RX_IDLE_IGNORE.  Inside a MAP cycle they belong to the next frame, not to
the one the cycle drives. -/
def ofNextFrame : Instr → Bool
  | .rxIdleBreak _ | .rxBdStart | .rxBdAbort _ | .rxFsSkip _ | .rxFsFirst _
  | .rxBdFe _ | .rxFsFe _ | .rxRcvFe _ | .rxDefault => true
  | .rxIdleIgnore _ | .rxRcvStore _
  | .mapPoll _ | .mapClear _ | .mapChan _ | .mapReserved _ => false

/-- CaptureIsolated, over what a run did: no MAP_CLEAR between a frame's RX_FS_FIRST and its last
RX_RCV_STORE, which is while RX is in Receiving; and no RX step of the next frame inside a MAP cycle,
which is from the MAP_POLL that finds the flag 1 to the last MAP_CHAN, while map_phase is not Poll. -/
def captureIsolated (h : List (Instr × State)) : Prop :=
  ∀ p ∈ h, (∀ f, p.1 = .mapClear f → p.2.rxState ≠ .receiving)
    ∧ (ofNextFrame p.1 = true → p.2.mapPhase = .poll)

/-- Output events other than BreakSeen: what MAP emitted (R130). -/
def mapEvents (es : List OutEvent) : List OutEvent := es.filter (· != .breakSeen)

end Sys2Proof.Machine
end

