-- ==== Sys2Proof/Certificates/Slice0/Obligations.lean ====
section
/-! DEFINITION. The statements for the provers.  A docstring names the rule or section of spec/ its statement formalises; where that rests on a decision of the spec's own (92_eei_decisions.md) or of the model's (notes/assumptions/), it says so. -/

open Sys2Proof Sys2Proof.Machine

/-! ## Reset -/

/-- R190, 10_state.md section 2 onwards: the values reset gives every element of R21, under any
configuration and any value of the port.  The values other than rx_state and base_address are the
spec's decision D8; that `State.reset` stands for `Config.typical` and port 0 is the model's choice
(notes/assumptions/1.md). -/
def Obligations.ResetValues : Prop :=
  (∀ (c : Config) (p : BaseAddr), c.wf = true →
    let s := State.resetWith c p
    s.cfg = c ∧ s.rxState = .idle ∧ s.baseAddress = p ∧ s.addrCtr = 0 ∧ s.fcc = 0
      ∧ (∀ i < c.numChannels, ∃ v, c.initBuffer[i]? = some v ∧ bufRead i s = some v)
      ∧ s.updatePending = false ∧ s.mapPhase = .poll ∧ s.mapIdx = 0 ∧ s.output = [])
  ∧ State.reset = State.resetWith Config.typical 0#9 ∧ Config.typical.wf = true

/-! ## Encoding -/

/-- R70, R80 (decisions D3, D20): every statement has one schedule word, every legal word one
statement, and the illegal words are those with sw[9] = 1 and sw[8:0] ≠ 0. -/
def Obligations.ScheduleWordsAndStatementsCorrespond : Prop :=
  (∀ st : Statement, decodeStatement (encodeStatement st) = .ok st)
  ∧ (∀ (w : SchedWord) (st : Statement), decodeStatement w = .ok st → encodeStatement st = w)
  ∧ (∀ w : SchedWord, (∃ err, decodeStatement w = .error err) ↔
      w.getLsbD 9 = true ∧ w.extractLsb' 0 9 ≠ 0#9)
  ∧ (∀ d : Byte, encodeStatement (.brk d) = 0x100#10 ||| d.zeroExtend 10
      ∧ encodeStatement (.byte d) = d.zeroExtend 10)
  ∧ encodeStatement .map = 0x200#10

/-- Decode and encode agree over the whole instruction set: every well-formed instruction but
RX_DEFAULT, which has no word (R74, R112), is what its decode word decodes to. -/
def Obligations.DecodeOfEncodeIsTheInstruction : Prop :=
  ∀ i : Instr, i.wf = true →
    (encode i = none ↔ i = .rxDefault) ∧ ∀ w, encode i = some w → decode w = i

/-- R74 and R76 the other way: every decode word decodes to a well-formed instruction that encodes
to that word, with g_hit kept where the row asks for it. -/
def Obligations.EncodeOfDecodeIsTheWord : Prop :=
  (∀ (rw : RxWord) (g : Bool), (decodeRx rw g).wf = true ∧
    ∃ g', encode (decodeRx rw g) = some (.rx rw g') ∧ decodeRx rw g' = decodeRx rw g)
  ∧ ∀ mw : MapWord, (decodeMap mw).wf = true ∧ encode (decodeMap mw) = some (.map mw)

/-- R73: exactly one row of the RX opcode map applies to each (rw, g_hit), and it is the row of the
instruction the decoder answers; no word selects RX_DEFAULT; and under IgnoreFlag the three rows for
a framing error outside Idle are never selected. -/
def Obligations.RxOpcodeMapSelectsExactlyOneRow : Prop :=
  (∀ (rw : RxWord) (g : Bool),
    (rxTable.filter fun r => r.applies rw g).map RxRow.mnemonic = [(decodeRx rw g).mnemonic]
    ∧ decodeRx rw g ≠ .rxDefault)
  ∧ ∀ (s : State) (e : RxEvent) (d : Byte), s.cfg.fePolicy = .ignoreFlag →
    selectRx e s ≠ .rxBdFe d ∧ selectRx e s ≠ .rxFsFe d ∧ selectRx e s ≠ .rxRcvFe d

/-- R76: exactly one row of the MAP opcode map applies to each mw, the row of the instruction the
decoder answers, and MAP_POLL is selected whatever the flag. -/
def Obligations.MapOpcodeMapSelectsExactlyOneRow : Prop :=
  (∀ mw : MapWord,
    (mapTable.filter fun r => r.applies mw).map MapRow.mnemonic = [(decodeMap mw).mnemonic])
  ∧ ∀ s : State, s.mapPhase = .poll → selectMap s = .mapPoll s.updatePending

/-- Words written out from R73 and R76 decode to the instructions they stand for. -/
def Obligations.SampleWordsDecode : Prop :=
  decodeRx 0b00101010101#11 false = .rxIdleBreak 0x55#8
  ∧ decodeRx 0b01000000000#11 false = .rxBdStart
  ∧ decodeRx 0b01011001100#11 false = .rxBdAbort 0xCC#8
  ∧ decodeRx 0b10000100010#11 true = .rxFsFirst 0x22#8
  ∧ decodeRx 0b10000100010#11 false = .rxFsSkip 0x22#8
  ∧ decodeRx 0b11001000100#11 false = .rxRcvStore 0x44#8
  ∧ decodeRx 0b11100000000#11 false = .rxRcvFe 0x00#8
  ∧ decodeMap 0b001#3 = .mapPoll true ∧ decodeMap 0b100#3 = .mapChan false

/-- R72 and R75 (decisions D3, D5, D14): the fields of the decode words, fe' under each FePolicy,
and g_hit. -/
def Obligations.DecodeWordFields : Prop :=
  ∀ (s : State) (e : RxEvent),
    (rxWord s e).extractLsb' 9 2 = rxCode s.rxState
    ∧ rxData (rxWord s e) = e.data
    ∧ (s.cfg.fePolicy = .resetToIdle → (rxWord s e).getLsbD 8 = e.fe)
    ∧ (s.cfg.fePolicy = .ignoreFlag →
        (rxWord s e).getLsbD 8 = if s.rxState = .idle then e.fe else false)
    ∧ (gHit s = true ↔ (s.addrCtr + 1) % 2 ^ s.cfg.addrCtrWidth = (startAddress s).toNat)
    ∧ (mapWord s).extractLsb' 1 2 = phaseCode s.mapPhase
    ∧ (mapWord s).getLsbD 0 = s.updatePending

/-- R30 and R114 (decision D18): StartAddress = BaseAddress + 1 never wraps and lies in [1, 512], so
zero-extending it to AddrCtrWidth ≥ 10 bits loses nothing. -/
def Obligations.StartAddressNeverWraps : Prop :=
  ∀ s : State, (startAddress s).toNat = s.baseAddress.toNat + 1
    ∧ 1 ≤ (startAddress s).toNat ∧ (startAddress s).toNat ≤ 512
    ∧ (s.cfg.wf = true → (startAddress s).toNat < 2 ^ s.cfg.addrCtrWidth)

/-- R25 and R28 (decisions D7, D14): FccWidth is the least w with 2^w > NumChannels, and IdxWidth
the least w ≥ 1 with 2^w ≥ NumChannels. -/
def Obligations.CounterWidthsAreLeast : Prop :=
  ∀ c : Config,
    (c.numChannels < 2 ^ fccWidth c ∧ ∀ w, c.numChannels < 2 ^ w → fccWidth c ≤ w)
    ∧ 1 ≤ idxWidth c ∧ c.numChannels ≤ 2 ^ idxWidth c
    ∧ ∀ w, 1 ≤ w → c.numChannels ≤ 2 ^ w → idxWidth c ≤ w

/-! ## The step -/

/-- A step runs the decoded instruction (R100, R130): the next statement of the schedule is consumed,
and the instruction its event or MAP's phase selects is executed in the state it leaves.  With
nothing left in the schedule the step is MAP's (DEDUCED from R166, notes/assumptions/6.md). -/
def Obligations.StepRunsTheDecodedInstruction : Prop :=
  ∀ s : State, s.cfg.wf = true →
    (∀ e : RxEvent, step (s.feed [.rx e]) = exec (decodeRx (rxWord s e) (gHit s)) s)
    ∧ step (s.feed [.map]) = exec (decodeMap (mapWord s)) s
    ∧ (s.schedule = [] → step s = exec (decodeMap (mapWord s)) s)

/-- R10 and R80: a configuration outside R9 has no step, and a MAP schedule word with sw[8:0] ≠ 0 is
refused. -/
def Obligations.IllegalInputsAreRefused : Prop :=
  (∀ s : State, s.cfg.wf = false → step s = .refused .illegalConfiguration)
  ∧ ∀ (s : State) (w : SchedWord) (rest : List SchedWord), s.cfg.wf = true →
      s.schedule = w :: rest → w.getLsbD 9 = true → w.extractLsb' 0 9 ≠ 0#9 →
      step s = .refused .illegalScheduleWord

/-! ## The RX instructions -/

/-- R101 (BreakSeen always emitted: decision D13): a framing error in Idle, whatever the data byte,
runs RX_IDLE_BREAK, which zeroes addr_ctr, emits BreakSeen and goes to BreakDetected; nothing else
changes. -/
def Obligations.IdleBreakStartsABreakCycle : Prop :=
  ∀ (s : State) (d : Byte),
    (s.rxState = .idle → selectRx ⟨true, d⟩ s = .rxIdleBreak d)
    ∧ exec (.rxIdleBreak d) s = .next
        { s with addrCtr := 0, output := s.output ++ [.breakSeen], rxState := .breakDetected }

/-- R102: a normal byte in Idle, 0x00 included, runs RX_IDLE_IGNORE, which changes nothing and emits
nothing. -/
def Obligations.IdleByteIsIgnored : Prop :=
  ∀ (s : State) (d : Byte),
    (s.rxState = .idle → selectRx ⟨false, d⟩ s = .rxIdleIgnore d)
    ∧ exec (.rxIdleIgnore d) s = .next s

/-- R104: the byte 0x00 in BreakDetected, and no other, runs RX_BD_START, which goes to FrameStarted
and changes nothing else: addr_ctr stays as it was, which is 0 in every state that meets the
invariant. -/
def Obligations.ZeroStartCodeStartsTheFrame : Prop :=
  decodeRx 0x200#11 (gHit := false) = .rxBdStart ∧ decodeRx 0x200#11 (gHit := true) = .rxBdStart
  ∧ ∀ (s : State), (s.rxState = .breakDetected → ∀ d : Byte,
      selectRx ⟨false, d⟩ s = .rxBdStart ↔ d = 0#8)
    ∧ exec .rxBdStart s = .next { s with rxState := .frameStarted }
    ∧ (s.Inv → s.rxState = .breakDetected → s.addrCtr = 0)

/-- R105: a byte other than 0x00 in BreakDetected runs RX_BD_ABORT, which goes to Idle and changes
nothing else: buf, fcc, addr_ctr and update_pending are untouched and nothing is emitted. -/
def Obligations.NonZeroStartCodeAbortsTheFrame : Prop :=
  ∀ (s : State) (d : Byte), d ≠ 0#8 →
    (s.rxState = .breakDetected → selectRx ⟨false, d⟩ s = .rxBdAbort d)
    ∧ exec (.rxBdAbort d) s = .next { s with rxState := .idle }
    ∧ (s.Inv → s.rxState = .breakDetected → s.addrCtr = 0)

/-- R106 (wrapping: decision D6): in FrameStarted a byte that does not bring the counter to
StartAddress runs RX_FS_SKIP, which increments addr_ctr modulo 2^AddrCtrWidth and changes nothing
else. -/
def Obligations.SlotBeforeTheWindowIsSkipped : Prop :=
  ∀ (s : State) (d : Byte),
    (s.rxState = .frameStarted → gHit s = false → selectRx ⟨false, d⟩ s = .rxFsSkip d)
    ∧ exec (.rxFsSkip d) s = .next
        { s with addrCtr := (s.addrCtr + 1) % 2 ^ s.cfg.addrCtrWidth }

/-- R107 (completion at NumChannels = 1: decision D7, conflict C5): in FrameStarted the byte that
brings the counter to StartAddress runs RX_FS_FIRST: the byte is stored at buf[0] and no other byte
changes, fcc becomes 1, update_pending becomes 1, and RX goes to Receiving, or to Idle when
NumChannels = 1. -/
def Obligations.FirstWindowSlotIsCaptured : Prop :=
  ∀ (s : State) (d : Byte),
    (s.rxState = .frameStarted → gHit s = true → selectRx ⟨false, d⟩ s = .rxFsFirst d)
    ∧ (1 ≤ s.cfg.numChannels → ∃ m,
        exec (.rxFsFirst d) s = .next
          { s with
            addrCtr := (s.addrCtr + 1) % 2 ^ s.cfg.addrCtrWidth
            fcc := 1
            buf := m
            updatePending := true
            rxState := if s.cfg.numChannels = 1 then .idle else .receiving }
        ∧ Memory.read s.cfg m 0 = d
        ∧ ∀ a, a ≠ 0 → Memory.read s.cfg m a = s.byteAt a)

/-- 40_receiver.md section 5: a byte in Receiving runs RX_RCV_STORE.  With 1 ≤ fcc ≤ NumChannels − 1 it is stored at
buf[fcc] and no other byte changes, fcc is incremented, and RX goes to Idle when fcc reaches
NumChannels; addr_ctr, update_pending and all else stay.  With fcc outside that range the model
faults and writes nothing: for fcc ≥ NumChannels R108 says so, for fcc = 0 I21 of
93_implementation_defined.md does (DEDUCED, notes/assumptions/11.md). -/
def Obligations.WindowByteIsStored : Prop :=
  ∀ (s : State) (d : Byte),
    (s.rxState = .receiving → selectRx ⟨false, d⟩ s = .rxRcvStore d)
    ∧ (1 ≤ s.fcc → s.fcc + 1 ≤ s.cfg.numChannels → ∃ m,
        exec (.rxRcvStore d) s = .next
          { s with
            fcc := s.fcc + 1
            buf := m
            rxState := if s.fcc + 1 = s.cfg.numChannels then .idle else .receiving }
        ∧ Memory.read s.cfg m s.fcc = d
        ∧ ∀ a, a ≠ s.fcc → Memory.read s.cfg m a = s.byteAt a)
    ∧ (¬ (1 ≤ s.fcc ∧ s.fcc + 1 ≤ s.cfg.numChannels) →
        exec (.rxRcvStore d) s = .fault .captureCountOutOfRange)

/-- R109, R110, R111: a framing error in BreakDetected, FrameStarted or Receiving runs RX_BD_FE,
RX_FS_FE or RX_RCV_FE, each of which goes to Idle and changes nothing else: no event, no counter, no
byte of buf, and update_pending keeps its value. -/
def Obligations.FramingErrorOutsideIdleResetsToIdle : Prop :=
  ∀ (s : State) (d : Byte),
    (s.cfg.fePolicy = .resetToIdle →
      (s.rxState = .breakDetected → selectRx ⟨true, d⟩ s = .rxBdFe d)
      ∧ (s.rxState = .frameStarted → selectRx ⟨true, d⟩ s = .rxFsFe d)
      ∧ (s.rxState = .receiving → selectRx ⟨true, d⟩ s = .rxRcvFe d))
    ∧ exec (.rxBdFe d) s = .next { s with rxState := .idle }
    ∧ exec (.rxFsFe d) s = .next { s with rxState := .idle }
    ∧ exec (.rxRcvFe d) s = .next { s with rxState := .idle }

/-- R112: RX_DEFAULT goes to Idle and changes nothing else; under the 2-bit encoding no event
selects it in any state. -/
def Obligations.UnrecognizedStateGoesToIdle : Prop :=
  ∀ s : State, exec .rxDefault s = .next { s with rxState := .idle }
    ∧ ∀ e : RxEvent, selectRx e s ≠ .rxDefault

/-! ## The MAP instructions -/

/-- R131: in Poll a MAP step runs MAP_POLL.  With the flag 0 nothing changes and nothing is emitted;
with the flag 1 map_phase becomes Clear, the flag stays 1, and nothing else changes. -/
def Obligations.PollTestsTheFlag : Prop :=
  ∀ (s : State) (f : Bool),
    (s.mapPhase = .poll → selectMap s = .mapPoll s.updatePending)
    ∧ (s.updatePending = false → exec (.mapPoll f) s = .next s)
    ∧ (s.updatePending = true → exec (.mapPoll f) s = .next { s with mapPhase := .clear })

/-- R132: in Clear a MAP step runs MAP_CLEAR, which clears update_pending whatever its value, sets
map_idx to 0 and map_phase to Chan, and changes nothing else. -/
def Obligations.ClearConsumesTheFlag : Prop :=
  ∀ (s : State) (f : Bool),
    (s.mapPhase = .clear → selectMap s = .mapClear s.updatePending)
    ∧ exec (.mapClear f) s = .next
        { s with updatePending := false, mapIdx := 0, mapPhase := .chan }

/-- R134 (buf is read at this step: decision D23): in Chan a MAP step runs MAP_CHAN, which reads
buf[map_idx] and emits SetPosition with the mapped value and then ChanActive, whatever the flag; it
goes on to the next channel, or back to Poll with map_idx = 0 after the last.  Nothing else changes.
A map_idx outside [0, NumChannels) is a model fault (R53). -/
def Obligations.ChannelStepDrivesOneChannel : Prop :=
  ∀ (s : State) (f : Bool),
    (s.mapPhase = .chan → selectMap s = .mapChan s.updatePending)
    ∧ (s.mapIdx + 1 < s.cfg.numChannels →
        exec (.mapChan f) s = .next
          { s with
            output := s.output ++ [.setPosition s.mapIdx (mapValue s.cfg (s.byteAt s.mapIdx)),
              .chanActive s.mapIdx (isActive s.cfg (s.byteAt s.mapIdx))]
            mapIdx := s.mapIdx + 1 })
    ∧ (s.mapIdx + 1 = s.cfg.numChannels →
        exec (.mapChan f) s = .next
          { s with
            output := s.output ++ [.setPosition s.mapIdx (mapValue s.cfg (s.byteAt s.mapIdx)),
              .chanActive s.mapIdx (isActive s.cfg (s.byteAt s.mapIdx))]
            mapIdx := 0
            mapPhase := .poll })
    ∧ (s.cfg.numChannels ≤ s.mapIdx → exec (.mapChan f) s = .fault .bufferIndexOutOfRange)

/-- R136 (decision D24): the reserved phase selects MAP_RESERVED, which is refused in every state. -/
def Obligations.ReservedPhaseIsRefused : Prop :=
  ∀ (s : State) (f : Bool),
    (s.mapPhase = .reserved → selectMap s = .mapReserved s.updatePending)
    ∧ exec (.mapReserved f) s = .refused .reservedMapPhase

/-! ## The linear map -/

/-- R133 (decisions D9, D11, conflict C6): map is ActuatorMin plus the floor of v·k/255, which is the
only number n with 255·n ≤ v·k < 255·(n + 1), and the clamp never changes it. -/
def Obligations.LinearMapIsFloorDivision : Prop :=
  ∀ (c : Config) (v : Byte), c.actuatorMin ≤ c.actuatorMax →
    ∃ n, mapValue c v = c.actuatorMin + n
      ∧ 255 * n ≤ v.toNat * (c.actuatorMax - c.actuatorMin)
      ∧ v.toNat * (c.actuatorMax - c.actuatorMin) < 255 * (n + 1)

/-- R137: map(0) = ActuatorMin, map(255) = ActuatorMax, map is non-decreasing and lands in
[ActuatorMin, ActuatorMax]; with equal ends it is constant. -/
def Obligations.LinearMapLaws : Prop :=
  ∀ c : Config, c.actuatorMin ≤ c.actuatorMax →
    mapValue c 0#8 = c.actuatorMin ∧ mapValue c 255#8 = c.actuatorMax
    ∧ (∀ v w : Byte, v.toNat ≤ w.toNat → mapValue c v ≤ mapValue c w)
    ∧ (∀ v : Byte, c.actuatorMin ≤ mapValue c v ∧ mapValue c v ≤ c.actuatorMax)
    ∧ (c.actuatorMin = c.actuatorMax → ∀ v : Byte, mapValue c v = c.actuatorMin)

/-- R135 (decision D12): Active(v) holds exactly when v exceeds NoiseThreshold, so a threshold of
255 makes no value active. -/
def Obligations.ActiveMeansAboveTheThreshold : Prop :=
  ∀ (c : Config) (v : Byte), (isActive c v = true ↔ v.toNat > c.noiseThreshold)
    ∧ (c.noiseThreshold = 255 → isActive c v = false)

/-! ## The buffer -/

/-- R53, R54, R63: a BufWrite inside the buffer is what the next BufRead of that index returns, and
leaves every other byte alone; an index outside [0, NumChannels) is a model fault for the write and
has no value for the read. -/
def Obligations.BufferReadsTheLatestWrite : Prop :=
  ∀ (s : State) (i : Nat) (v : Byte),
    (i < s.cfg.numChannels → ∃ t, bufWrite i v s = .next t ∧ bufRead i t = some v
      ∧ ∀ a, a ≠ i → t.byteAt a = s.byteAt a ∧ bufRead a t = bufRead a s)
    ∧ (s.cfg.numChannels ≤ i →
        bufWrite i v s = .fault .bufferIndexOutOfRange ∧ bufRead i s = none)

/-- The canonical form of memory: a write within the buffer keeps it, and two canonical memories that
read alike at every index are equal (the model's own form, notes/assumptions/2.md). -/
def Obligations.CanonicalMemoryIsDeterminedByItsReads : Prop :=
  (∀ (c : Config) (m : Memory) (a : Nat) (v : Byte), Memory.wf c m = true → a < c.numChannels →
    Memory.wf c (Memory.write c m a v) = true)
  ∧ ∀ (c : Config) (m n : Memory), Memory.wf c m = true → Memory.wf c n = true →
      (∀ a, Memory.read c m a = Memory.read c n a) → m = n

/-! ## Rules of the whole machine -/

/-- R113, R137 and R136 as one invariant that every step keeps. -/
def Obligations.StepKeepsTheInvariant : Prop :=
  ∀ s t : State, s.Inv → step s = .next t → t.Inv

/-- The invariant holds after reset, under every legal configuration, port value and schedule. -/
def Obligations.ResetMeetsTheInvariant : Prop :=
  ∀ (c : Config) (p : BaseAddr) (ws : List SchedWord), c.wf = true →
    State.Inv { State.resetWith c p with schedule := ws }

/-- R160: no step of a reachable state fails, whatever input event comes next, and MAP always has a
step. -/
def Obligations.NoStepOfAReachableStateFails : Prop :=
  ∀ s : State, Reachable s →
    (∀ w : EventWord, ∃ t, step (s.feed [.rx (decodeEvent w)]) = .next t)
    ∧ (∃ t, step (s.feed [.map]) = .next t)
    ∧ (legalSchedule s.schedule → ∃ t, step s = .next t ∧ legalSchedule t.schedule)

/-- R113 for the runs of R211: (a), (b) and (d) in every reachable state, under either FePolicy, and
(c): the index of every BufWrite an event can cause is inside the buffer. -/
def Obligations.ReceiverInvariantsOfReachableStates : Prop :=
  ∀ s : State, Reachable s →
    (s.rxState = .receiving → 1 ≤ s.fcc ∧ s.fcc ≤ s.cfg.numChannels - 1)
    ∧ s.fcc ≤ s.cfg.numChannels
    ∧ (s.rxState = .frameStarted ∨ s.rxState = .receiving → OutEvent.breakSeen ∈ s.output)
    ∧ ∀ (e : RxEvent) (d : Byte),
        (selectRx e s = .rxFsFirst d → 0 < s.cfg.numChannels)
        ∧ (selectRx e s = .rxRcvStore d → s.fcc < s.cfg.numChannels)

/-- R163, R137 (d) and R140: in every reachable state each target emitted so far lies in
[ActuatorMin, ActuatorMax] and fits in OutWidth bits, each channel index is below NumChannels and
fits in IdxWidth bits, and fcc fits in FccWidth bits. -/
def Obligations.EmittedValuesAreInRange : Prop :=
  ∀ s : State, Reachable s →
    (∀ i v, OutEvent.setPosition i v ∈ s.output →
      i < s.cfg.numChannels ∧ i < 2 ^ idxWidth s.cfg ∧ s.cfg.actuatorMin ≤ v
        ∧ v ≤ s.cfg.actuatorMax ∧ v < 2 ^ s.cfg.outWidth)
    ∧ (∀ i b, OutEvent.chanActive i b ∈ s.output → i < s.cfg.numChannels ∧ i < 2 ^ idxWidth s.cfg)
    ∧ s.fcc < 2 ^ fccWidth s.cfg ∧ s.mapIdx < 2 ^ idxWidth s.cfg
    ∧ s.addrCtr < 2 ^ s.cfg.addrCtrWidth

/-- R23 and R30: no step writes the configuration or the sampled base address, and each step takes
at most one statement from the schedule (R80). -/
def Obligations.StepsLeaveTheConfigurationAlone : Prop :=
  ∀ s t : State, step s = .next t →
    t.cfg = s.cfg ∧ t.baseAddress = s.baseAddress ∧ t.schedule = s.schedule.tail

/-- R100: an RX step is the instruction its decode word and guard select; it writes only rx_state,
addr_ctr, fcc, buf and update_pending and emits only BreakSeen; and it never reads update_pending or
map_phase: from any state that looks alike to RX it leaves RX's own state the same, emits the same
events, and either sets the flag in both or leaves it alone in both. -/
def Obligations.RxStepTouchesOnlyItsOwnState : Prop :=
  ∀ (s t : State) (e : RxEvent), s.cfg.wf = true → step (s.feed [.rx e]) = .next t →
    exec (decodeRx (rxWord s e) (gHit s)) s = .next t
    ∧ (∃ r a n m f, t = { s with
        rxState := r, addrCtr := a, fcc := n, buf := m, updatePending := f, output := t.output })
    ∧ (t.output = s.output ∨ t.output = s.output ++ [.breakSeen])
    ∧ ∀ s' : State, s'.rxView = s.rxView →
        ∃ t', step (s'.feed [.rx e]) = .next t' ∧ t'.rxView = t.rxView
          ∧ (∃ es, t.output = s.output ++ es ∧ t'.output = s'.output ++ es)
          ∧ ((t.updatePending = true ∧ t'.updatePending = true)
            ∨ (t.updatePending = s.updatePending ∧ t'.updatePending = s'.updatePending))

/-- R130 (decision D14): a MAP step never writes buf, rx_state, addr_ctr or fcc; it writes
update_pending only to 0, and map_phase and map_idx; it emits nothing, or SetPosition and ChanActive
of one channel; and it reads nothing of RX's control state. -/
def Obligations.MapStepTouchesOnlyItsOwnState : Prop :=
  ∀ s t : State, s.cfg.wf = true → step (s.feed [.map]) = .next t →
    (∃ p i, t = { s with
        mapPhase := p, mapIdx := i, updatePending := t.updatePending, output := t.output })
    ∧ (t.updatePending = s.updatePending ∨ t.updatePending = false)
    ∧ (t.output = s.output
        ∨ ∃ v, bufRead s.mapIdx s = some v ∧ t.output = s.output ++ channelEvents s.cfg s.mapIdx v)
    ∧ ∀ s' : State, s'.mapView = s.mapView →
        ∃ t', step (s'.feed [.map]) = .next t' ∧ t'.mapView = t.mapView
          ∧ ∃ es, t.output = s.output ++ es ∧ t'.output = s'.output ++ es

/-- R27 and R55: update_pending is set only by capturing the first byte of the window and cleared
only by MAP_CLEAR. -/
def Obligations.FlagIsSetByCaptureAndClearedByMap : Prop :=
  ∀ s t : State, ∀ i : Instr, exec i s = .next t →
    (s.updatePending = false → t.updatePending = true → ∃ d, i = .rxFsFirst d)
    ∧ (s.updatePending = true → t.updatePending = false → ∃ f, i = .mapClear f)

/-- R58, R26 and the frame of memory: an instruction changes a byte of ChannelBuffer only if it is
RX_FS_FIRST at index 0 or RX_RCV_STORE at index fcc; after every other instruction every byte reads as
before. -/
def Obligations.BufferIsWrittenOnlyByCapture : Prop :=
  ∀ s t : State, ∀ i : Instr, exec i s = .next t → ∀ a, t.byteAt a ≠ s.byteAt a →
    (∃ d, i = .rxFsFirst d ∧ a = 0) ∨ (∃ d, i = .rxRcvStore d ∧ a = s.fcc)

/-- R29, R56, R101, R134: the output only grows; BreakSeen comes from RX_IDLE_BREAK alone, the two
events of a channel from MAP_CHAN alone, and every other instruction emits nothing. -/
def Obligations.OutputGrowsOnlyByBreakAndChannel : Prop :=
  ∀ s t : State, ∀ i : Instr, exec i s = .next t →
    match i with
    | .rxIdleBreak _ => t.output = s.output ++ [.breakSeen]
    | .mapChan _ => t.output = s.output ++ channelEvents s.cfg s.mapIdx (s.byteAt s.mapIdx)
    | _ => t.output = s.output

/-- R174 and R59: MAP sends nothing to RX.  Two schedules with the same input events in the same
order, however their MAP steps are interleaved, leave RX's own state and the buffer the same. -/
def Obligations.MapStepsDoNotInfluenceRx : Prop :=
  ∀ (s s' : State) (sts sts' : List Statement), s.Inv → s'.Inv → s.rxView = s'.rxView →
    rxEvents sts = rxEvents sts' →
    ∃ t t', run sts.length (s.feed sts) = .next t ∧ run sts'.length (s'.feed sts') = .next t'
      ∧ t.rxView = t'.rxView

/-- R138 and R211 (decision D25): a quiescent state does not change, however many steps are taken:
each is a MAP_POLL that finds the flag 0, and only the schedule's own MAP words are used up.  MAP
steps without end stay in it for ever. -/
def Obligations.QuiescentStateStaysAsItIs : Prop :=
  ∀ s : State, s.cfg.wf = true → s.quiescent →
    (∀ k : Nat, run k s = .next { s with schedule := s.schedule.drop k }
      ∧ (history k s).length = k ∧ ∀ p ∈ history k s, p.1 = .mapPoll false)
    ∧ InfiniteRun s (fun _ => .map) (fun _ => s)

/-- R211, R31, R59, R166: every endless interleaving of input events and MAP steps has exactly one
infinite run, and each finite prefix of it is a finite run whose states meet the invariant. -/
def Obligations.EveryInterleavingHasOneInfiniteRun : Prop :=
  ∀ (s : State) (sts : Nat → Statement), s.Inv →
    (∃ σ, InfiniteRun s sts σ)
    ∧ ∀ σ, InfiniteRun s sts σ → ∀ n,
        run n (s.feed ((List.range n).map sts)) = .next (σ n) ∧ (σ n).Inv
        ∧ ∀ σ', InfiniteRun s sts σ' → σ' n = σ n

/-- R166 and R130 (decision D22), MAP makes progress under weak fairness: in an infinite run that
takes MAP steps again and again, whenever the flag is 1, each channel is driven at some later step,
from the byte the buffer holds at that step. -/
def Obligations.FairMapDrivesEveryChannel : Prop :=
  ∀ (s : State) (sts : Nat → Statement) (σ : Nat → State), s.Inv → InfiniteRun s sts σ →
    mapFair sts → ∀ n, (σ n).updatePending = true → ∀ i < s.cfg.numChannels,
      ∃ m, n ≤ m ∧ sts m = .map ∧ (σ m).mapPhase = .chan ∧ (σ m).mapIdx = i
        ∧ (σ (m + 1)).output = (σ m).output ++ channelEvents s.cfg i ((σ m).byteAt i)

/-! ## Laws of the receiver -/

/-- R115, with MAP steps interleaved anywhere: from Idle, a break, the start code 0x00 and at least
StartAddress − 1 + NumChannels data bytes leave RX in Idle with buf[i] = d(StartAddress + i) for
every i; and update_pending is 1 at the end exactly when no MAP_CLEAR comes after the byte of slot
StartAddress. -/
def Obligations.FrameCaptureLaw : Prop :=
  ∀ (s : State) (b : Byte) (ds : List Byte) (sts : List Statement), s.Inv →
    s.cfg.fePolicy = .resetToIdle → s.rxState = .idle → coversWindow s ds →
    rxEvents sts = ⟨true, b⟩ :: ⟨false, 0#8⟩ :: bytes ds →
    ∃ t, run sts.length (s.feed sts) = .next t ∧ t.rxState = .idle ∧ t.schedule = s.schedule
      ∧ (∀ i < s.cfg.numChannels, t.byteAt i = windowByte s ds i)
      ∧ ∀ before d after, sts = before ++ .byte d :: after →
          (rxEvents before).length = (startAddress s).toNat + 1 →
          (t.updatePending = true ↔
            noClear ((history sts.length (s.feed sts)).drop (before.length + 1)))

/-- R115, last part, R102: in Idle, bytes without a framing error change nothing of RX's state,
whatever MAP does between them. -/
def Obligations.IdleIgnoresEveryByte : Prop :=
  ∀ (s : State) (ds : List Byte) (sts : List Statement), s.Inv → s.rxState = .idle →
    rxEvents sts = bytes ds →
    ∃ t, run sts.length (s.feed sts) = .next t ∧ t.rxView = s.rxView
      ∧ (s.updatePending = false → t.updatePending = false)
      ∧ (noClear (history sts.length (s.feed sts)) → t.updatePending = s.updatePending)

/-- R116: a non-zero start code discards the frame: whatever bytes follow, RX stays in Idle, buf
and fcc are unchanged, and update_pending is changed by no RX step. -/
def Obligations.DiscardLaw : Prop :=
  ∀ (s : State) (b sc : Byte) (ds : List Byte) (sts : List Statement), s.Inv →
    s.rxState = .idle → sc ≠ 0#8 → rxEvents sts = ⟨true, b⟩ :: ⟨false, sc⟩ :: bytes ds →
    ∃ t, run sts.length (s.feed sts) = .next t ∧ t.rxView = { s.rxView with addrCtr := 0 }
      ∧ (s.updatePending = false → t.updatePending = false)
      ∧ (noClear (history sts.length (s.feed sts)) → t.updatePending = s.updatePending)

/-- R117 and R202: under ResetToIdle, a framing error that finds RX outside Idle only aborts: the
frame that follows it is lost, whatever its start code and bytes, and buf keeps what it held; the
next framing error finds RX in Idle and starts a new break cycle with addr_ctr = 0. -/
def Obligations.AbortLosesTheNextFrameThenResynchronises : Prop :=
  ∀ (s : State) (b b' : Byte) (ds : List Byte) (sts : List Statement), s.Inv →
    s.cfg.fePolicy = .resetToIdle → s.rxState ≠ .idle →
    rxEvents sts = ⟨true, b⟩ :: bytes ds ++ [⟨true, b'⟩] →
    ∃ t, run sts.length (s.feed sts) = .next t
      ∧ t.rxView = { s.rxView with rxState := .breakDetected, addrCtr := 0 }

/-- R203, conflict C4: a frame aborted in Receiving after its first n < NumChannels window bytes
leaves those bytes in buf, the bytes from index n on as they were, and update_pending set exactly
when no MAP_CLEAR comes after the first of them. -/
def Obligations.AbortedCaptureLeavesAStaleTail : Prop :=
  ∀ (s : State) (b : Byte) (ds : List Byte) (sts : List Statement), s.Inv →
    s.cfg.fePolicy = .resetToIdle → s.rxState = .frameStarted → gHit s = true →
    1 ≤ ds.length → ds.length < s.cfg.numChannels →
    rxEvents sts = bytes ds ++ [⟨true, b⟩] →
    ∃ t, run sts.length (s.feed sts) = .next t ∧ t.rxState = .idle ∧ t.fcc = ds.length
      ∧ (∀ i < ds.length, t.byteAt i = ds.getD i 0#8)
      ∧ (∀ i, ds.length ≤ i → t.byteAt i = s.byteAt i)
      ∧ ∀ before d after, sts = before ++ .byte d :: after → rxEvents before = [] →
          (t.updatePending = true ↔
            noClear ((history sts.length (s.feed sts)).drop (before.length + 1)))

/-- R192: from reset, events without a framing error change nothing, and MAP emits nothing, whatever
the configuration and the interleaving. -/
def Obligations.NothingHappensBeforeTheFirstBreak : Prop :=
  ∀ (c : Config) (p : BaseAddr) (ds : List Byte) (sts : List Statement), c.wf = true →
    rxEvents sts = bytes ds →
    run sts.length ((State.resetWith c p).feed sts) = .next (State.resetWith c p)

/-! ## Laws of the mapper -/

/-- R139: from Poll with the flag 1, one MAP step goes to Clear and leaves all else; from Clear,
NumChannels + 1 MAP steps with no RX step between them clear the flag, drive every channel in order
from the buffer as it was at MAP_CLEAR, and end at Poll.  What is emitted depends on the buffer
alone, so equal buffers are driven alike (no deduplication). -/
def Obligations.CycleLaw : Prop :=
  ∀ s : State, s.cfg.wf = true →
    (s.mapPhase = .poll → s.updatePending = true →
      step (s.feed [.map]) = .next { s with mapPhase := .clear })
    ∧ (s.mapPhase = .clear →
      run (s.cfg.numChannels + 1) (s.feed (List.replicate (s.cfg.numChannels + 1) .map)) = .next
        { s with
          updatePending := false
          mapPhase := .poll
          mapIdx := 0
          output := s.output ++ cycleEvents s.cfg s.byteAt })

/-- R81 (decision D20): CYCLE from a poll runs MAP back to Poll in exactly its own steps: 1 with the
flag 0, NumChannels + 2 with the flag 1, after which the flag is 0; and no shorter run of MAP steps is
back at Poll. -/
def Obligations.CycleStatementsReturnToPoll : Prop :=
  ∀ s : State, s.cfg.wf = true → s.mapPhase = .poll →
    (cycleStatements s.cfg s.updatePending).length =
      (if s.updatePending then s.cfg.numChannels + 2 else 1)
    ∧ ∃ t, run (cycleStatements s.cfg s.updatePending).length
        (s.feed (cycleStatements s.cfg s.updatePending)) = .next t
      ∧ t.mapPhase = .poll ∧ t.updatePending = false ∧ t.rxView = s.rxView
      ∧ t.output = s.output ++ (if s.updatePending then cycleEvents s.cfg s.byteAt else [])
      ∧ ∀ j, 0 < j → j < (cycleStatements s.cfg s.updatePending).length →
          ∃ u, run j (s.feed (cycleStatements s.cfg s.updatePending)) = .next u
            ∧ u.mapPhase ≠ .poll

/-- R200 and R54, a torn read: an RX_RCV_STORE at the index MAP_CHAN is about to read, in the middle
of a cycle, is what that MAP_CHAN drives. -/
def Obligations.TornReadSeesTheNewByte : Prop :=
  ∀ (s : State) (d : Byte), s.Inv → s.rxState = .receiving → s.mapPhase = .chan →
    s.mapIdx = s.fcc →
    ∃ t, run 2 (s.feed [.byte d, .map]) = .next t
      ∧ t.output = s.output ++ channelEvents s.cfg s.fcc d

/-- R201, a lost update: a first capture between MAP_POLL and MAP_CLEAR sets a flag that is already
1, and the one MAP_CLEAR clears both sets.  If the rest of the window (`ds`) comes after the cycle's
last MAP_CHAN, the cycle drives the new byte on channel 0 and the old bytes on every other channel,
and however many MAP steps follow, the new bytes in the buffer are not driven. -/
def Obligations.LostUpdateMergesTwoSets : Prop :=
  ∀ (s : State) (d : Byte), s.Inv → s.rxState = .frameStarted → gHit s = true →
    s.mapPhase = .poll → s.updatePending = true →
    ∃ t, run 3 (s.feed [.map, .byte d, .map]) = .next t
      ∧ t.updatePending = false ∧ t.mapPhase = .chan ∧ t.byteAt 0 = d ∧ t.output = s.output
      ∧ ∀ (ds : List Byte) (k : Nat), ds.length + 1 = s.cfg.numChannels →
          let sts := List.replicate s.cfg.numChannels .map ++ ds.map .byte ++ List.replicate k .map
          ∃ u, run sts.length (t.feed sts) = .next u
            ∧ u.updatePending = false ∧ u.mapPhase = .poll ∧ u.rxState = .idle
            ∧ (∀ i, i < ds.length → u.byteAt (i + 1) = ds.getD i 0#8)
            ∧ u.output = s.output ++ cycleEvents s.cfg fun i => if i = 0 then d else s.byteAt i

/-- R201, its second half for one byte: a window byte stored at an index MAP has passed in its cycle,
or after the cycle, with the flag already cleared, is driven by no number of MAP steps. -/
def Obligations.ByteStoredBehindMapIsNotDriven : Prop :=
  ∀ (s : State) (d : Byte) (k : Nat), s.Inv → s.rxState = .receiving → s.updatePending = false →
    (s.mapPhase = .poll ∨ (s.mapPhase = .chan ∧ s.fcc < s.mapIdx)) →
    ∃ t es, run (k + 1) (s.feed (.byte d :: List.replicate k .map)) = .next t
      ∧ t.byteAt s.fcc = d ∧ t.updatePending = false ∧ t.output = s.output ++ es
      ∧ ∀ v, OutEvent.setPosition s.fcc v ∉ es

/-! ## The whole block -/

/-- R115 and R139 together: from an idle block, frames that meet NullStartCode and FrameCoversWindow
(R205), each followed by a whole MAP cycle, are captured and driven one by one: for every frame the
output gains BreakSeen and then SetPosition(i, map(d(StartAddress + i))) and ChanActive for every
channel in order, and the block is idle again. -/
def Obligations.FramesAreCapturedAndDriven : Prop :=
  ∀ (s : State) (frames : List Frame), s.Inv → s.cfg.fePolicy = .resetToIdle →
    s.rxState = .idle → s.mapPhase = .poll → s.updatePending = false →
    nullStartCode frames → frameCoversWindow s frames →
    ∃ t, run (frames.flatMap fun f => f.statements ++ cycleStatements s.cfg true).length
        (s.feed (frames.flatMap fun f => f.statements ++ cycleStatements s.cfg true)) = .next t
      ∧ t.rxState = .idle ∧ t.mapPhase = .poll ∧ t.updatePending = false
      ∧ t.schedule = s.schedule
      ∧ t.output = s.output ++
          frames.flatMap fun f => .breakSeen :: cycleEvents s.cfg (windowByte s f.slots)

/-- R205 (decision D21): under OneFePerBreak, NullStartCode, FrameCoversWindow and CaptureIsolated,
wherever the MAP steps stand, every frame's window values are in the buffer, complete, when the frame
ends, and every MAP cycle drives one frame's values.  `driven` are the frames whose cycle ended, in
order and each at most once; while the flag is 1 or a cycle runs, the last frame is not yet among
them, and otherwise it is the last of them.  A cycle that has not ended has emitted the channels below
map_idx from the buffer, which holds the last frame.  An input cut inside its last frame, on which
R205 is silent, does not meet the premises (log entry 22, DESIGN CHOICE, safe). -/
def Obligations.FramePremisesGiveWholeFrames : Prop :=
  ∀ (s : State) (frames : List Frame) (sts : List Statement), s.Inv →
    s.cfg.fePolicy = .resetToIdle →
    s.rxState = .idle → s.mapPhase = .poll → s.updatePending = false →
    oneFePerBreak frames (rxEvents sts) → nullStartCode frames → frameCoversWindow s frames →
    captureIsolated (history sts.length (s.feed sts)) →
    ∃ t, run sts.length (s.feed sts) = .next t ∧ t.rxState = .idle
      ∧ (∀ before after done f, sts = before ++ after → (done ++ [f]).IsPrefix frames →
          oneFePerBreak (done ++ [f]) (rxEvents before) →
          ∃ u, run before.length (s.feed sts) = .next u
            ∧ ∀ i < s.cfg.numChannels, u.byteAt i = windowByte s f.slots i)
      ∧ (∀ f, frames.getLast? = some f → ∀ i < s.cfg.numChannels, t.byteAt i = windowByte s f.slots i)
      ∧ ∃ driven : List Frame,
          (driven ++ if t.updatePending = true ∨ t.mapPhase ≠ .poll then frames.getLast?.toList
            else []).Sublist frames
          ∧ (t.updatePending = false → t.mapPhase = .poll → driven.getLast? = frames.getLast?)
          ∧ mapEvents t.output = mapEvents s.output
              ++ driven.flatMap (fun f => cycleEvents s.cfg (windowByte s f.slots))
              ++ if t.mapPhase = .chan then
                  (List.range t.mapIdx).flatMap fun i => channelEvents s.cfg i (t.byteAt i)
                else []
end

