-- ==== Sys2Proof/Laws/Memory.lean ====
section
/-! SUPPORT. ChannelBuffer as memory: read after write, the canonical form, and that a canonical memory is determined by its reads. -/

namespace Sys2Proof.Machine

theorem Memory.find_erase_self (a : Nat) (m : Memory) : Memory.find a (Memory.erase a m) = none := by
  induction m with
  | nil => rfl
  | cons c m ih =>
    by_cases h : c.1 = a
    · simpa [Memory.erase, h] using ih
    · simpa [Memory.erase, h, Memory.find] using ih

theorem Memory.find_erase_other {a b : Nat} (h : b ≠ a) (m : Memory) :
    Memory.find b (Memory.erase a m) = Memory.find b m := by
  induction m with
  | nil => rfl
  | cons c m ih =>
    by_cases hc : c.1 = a
    · have hb : c.1 ≠ b := fun hb => h (hb.symm.trans hc)
      simpa [Memory.erase, hc, Memory.find, h.symm] using ih
    · by_cases hb : c.1 = b
      · simp [Memory.erase, Memory.find, hb, h]
      · simpa [Memory.erase, hc, Memory.find, hb] using ih

theorem Memory.find_insert_self (a : Nat) (v : Byte) (m : Memory) (h : Memory.find a m = none) :
    Memory.find a (Memory.insert a v m) = some v := by
  induction m with
  | nil => simp [Memory.insert, Memory.find]
  | cons c m ih =>
    have hc : c.1 ≠ a := fun hc => by simp [Memory.find, hc] at h
    have hm : Memory.find a m = none := by simpa [Memory.find, hc] using h
    by_cases hlt : a < c.1
    · simp [Memory.insert, hlt, Memory.find]
    · simp [Memory.insert, hlt, Memory.find, hc, ih hm]

theorem Memory.find_insert_other {a b : Nat} (h : b ≠ a) (v : Byte) (m : Memory) :
    Memory.find b (Memory.insert a v m) = Memory.find b m := by
  induction m with
  | nil => simp [Memory.insert, Memory.find, h.symm]
  | cons c m ih =>
    by_cases hlt : a < c.1
    · simp [Memory.insert, hlt, Memory.find, h.symm]
    · rw [Memory.insert, if_neg hlt]
      by_cases hb : c.1 = b
      · simp [Memory.find, hb]
      · simp [Memory.find, hb, ih]

/-- Read after write at the same index, for every memory. -/
@[simp] theorem Memory.read_write_self (c : Config) (m : Memory) (a : Nat) (v : Byte) :
    Memory.read c (Memory.write c m a v) a = v := by
  unfold Memory.write
  split <;> rename_i h
  · simp [Memory.read, Memory.find_erase_self, h]
  · simp [Memory.read, Memory.find_insert_self, Memory.find_erase_self]

/-- A write leaves every other index alone, for every memory. -/
theorem Memory.read_write_other {a b : Nat} (h : b ≠ a) (c : Config) (m : Memory) (v : Byte) :
    Memory.read c (Memory.write c m a v) b = Memory.read c m b := by
  unfold Memory.write
  split <;> simp [Memory.read, Memory.find_insert_other h, Memory.find_erase_other h]

/-! ## The canonical form -/

theorem Memory.risesFrom_mono {lo lo' : Nat} (h : lo' ≤ lo) {m : Memory}
    (hm : Memory.risesFrom lo m = true) : Memory.risesFrom lo' m = true := by
  cases m with
  | nil => rfl
  | cons c m =>
    simp only [Memory.risesFrom, Bool.and_eq_true, decide_eq_true_eq] at hm ⊢
    exact ⟨by omega, hm.2⟩

theorem Memory.risesFrom_erase (a : Nat) {lo : Nat} {m : Memory}
    (hm : Memory.risesFrom lo m = true) : Memory.risesFrom lo (Memory.erase a m) = true := by
  induction m generalizing lo with
  | nil => rfl
  | cons c m ih =>
    simp only [Memory.risesFrom, Bool.and_eq_true, decide_eq_true_eq] at hm
    by_cases hc : c.1 = a
    · have : Memory.erase a (c :: m) = Memory.erase a m := by simp [Memory.erase, hc]
      rw [this]
      exact Memory.risesFrom_mono (by omega) (ih hm.2)
    · have : Memory.erase a (c :: m) = c :: Memory.erase a m := by simp [Memory.erase, hc]
      rw [this]
      simp [Memory.risesFrom, hm.1, ih hm.2]

theorem Memory.risesFrom_insert {a : Nat} (v : Byte) {lo : Nat} {m : Memory} (hlo : lo ≤ a)
    (hm : Memory.risesFrom lo m = true) (hf : Memory.find a m = none) :
    Memory.risesFrom lo (Memory.insert a v m) = true := by
  induction m generalizing lo with
  | nil => simp [Memory.insert, Memory.risesFrom, hlo]
  | cons c m ih =>
    have hc : c.1 ≠ a := fun hc => by simp [Memory.find, hc] at hf
    simp only [Memory.risesFrom, Bool.and_eq_true, decide_eq_true_eq] at hm
    by_cases hlt : a < c.1
    · simp [Memory.insert, hlt, Memory.risesFrom, hlo, hm.2]
    · have hf' : Memory.find a m = none := by simpa [Memory.find, hc] using hf
      simp [Memory.insert, hlt, Memory.risesFrom, hm.1, ih (by omega) hm.2 hf']

theorem Memory.mem_insert {a : Nat} {v : Byte} {m : Memory} {x : Host.Cell} :
    x ∈ Memory.insert a v m → x = (a, v) ∨ x ∈ m := by
  induction m with
  | nil => simp [Memory.insert]
  | cons c m ih =>
    by_cases hlt : a < c.1
    · simp [Memory.insert, hlt]
    · simp only [Memory.insert, hlt, if_false, List.mem_cons]
      rintro (h | h)
      · exact .inr (.inl h)
      · exact (ih h).imp_right .inr

theorem Memory.wf_iff (c : Config) (m : Memory) : Memory.wf c m = true ↔
    Memory.risesFrom 0 m = true ∧ ∀ x ∈ m, x.1 < c.numChannels ∧ x.2 ≠ initByte c x.1 := by
  simp [Memory.wf]

/-- Memory with nothing listed, the reset contents, is canonical. -/
@[simp] theorem Memory.wf_nil (c : Config) : Memory.wf c [] = true := rfl

/-- With nothing listed every index reads as InitBuffer. -/
@[simp] theorem Memory.read_nil (c : Config) (a : Nat) : Memory.read c [] a = initByte c a := rfl

/-- Every write within the buffer keeps the canonical form. -/
theorem Memory.wf_write {c : Config} {m : Memory} {a : Nat} (v : Byte)
    (hm : Memory.wf c m = true) (ha : a < c.numChannels) :
    Memory.wf c (Memory.write c m a v) = true := by
  rw [Memory.wf_iff] at hm ⊢
  have her : ∀ x ∈ Memory.erase a m, x ∈ m := fun x hx => (List.mem_filter.1 hx).1
  unfold Memory.write
  split <;> rename_i h
  · exact ⟨Memory.risesFrom_erase a hm.1, fun x hx => hm.2 x (her x hx)⟩
  · refine ⟨Memory.risesFrom_insert v (Nat.zero_le _) (Memory.risesFrom_erase a hm.1)
      (Memory.find_erase_self a m), fun x hx => ?_⟩
    rcases Memory.mem_insert hx with rfl | hx
    · exact ⟨ha, h⟩
    · exact hm.2 x (her x hx)

theorem Memory.find_none_of_risesFrom {lo a : Nat} (h : a < lo) {m : Memory}
    (hm : Memory.risesFrom lo m = true) : Memory.find a m = none := by
  induction m generalizing lo with
  | nil => rfl
  | cons c m ih =>
    simp only [Memory.risesFrom, Bool.and_eq_true, decide_eq_true_eq] at hm
    have : c.1 ≠ a := by omega
    simp [Memory.find, this, ih (by omega) hm.2]

/-- In a rising memory the first cell is what a read of its index finds. -/
theorem Memory.find_head (c : Host.Cell) (m : Memory) : Memory.find c.1 (c :: m) = some c.2 := by
  simp [Memory.find]

/-- Rising memories that find the same at every index are equal. -/
theorem Memory.eq_of_find_eq {lo : Nat} {m n : Memory} (hm : Memory.risesFrom lo m = true)
    (hn : Memory.risesFrom lo n = true) (h : ∀ a, Memory.find a m = Memory.find a n) : m = n := by
  induction m generalizing lo n with
  | nil =>
    cases n with
    | nil => rfl
    | cons d n => have := h d.1; simp [Memory.find] at this
  | cons c m ih =>
    cases n with
    | nil => have := h c.1; simp [Memory.find] at this
    | cons d n =>
      simp only [Memory.risesFrom, Bool.and_eq_true, decide_eq_true_eq] at hm hn
      have hcd : c.1 = d.1 := by
        rcases Nat.lt_trichotomy c.1 d.1 with hlt | heq | hlt
        · have := h c.1
          rw [Memory.find_head, Memory.find_none_of_risesFrom (lo := d.1) hlt
            (by simp [Memory.risesFrom, hn.2])] at this
          cases this
        · exact heq
        · have := h d.1
          rw [Memory.find_head, Memory.find_none_of_risesFrom (lo := c.1) hlt
            (by simp [Memory.risesFrom, hm.2])] at this
          cases this
      have hv : c.2 = d.2 := by
        have := h c.1
        rw [Memory.find_head, hcd, Memory.find_head] at this
        exact Option.some.inj this
      have hc : c = d := Prod.ext hcd hv
      subst hc
      congr 1
      refine ih hm.2 hn.2 fun a => ?_
      by_cases ha : c.1 = a
      · subst ha
        rw [Memory.find_none_of_risesFrom (Nat.lt_succ_self _) hm.2,
          Memory.find_none_of_risesFrom (Nat.lt_succ_self _) hn.2]
      · simpa [Memory.find, ha] using h a

theorem Memory.find_mem {a : Nat} {v : Byte} {m : Memory} (h : Memory.find a m = some v) :
    (a, v) ∈ m := by
  induction m with
  | nil => simp [Memory.find] at h
  | cons c m ih =>
    by_cases hc : c.1 = a
    · simp only [Memory.find, hc, if_true, Option.some.injEq] at h
      subst hc h
      simp
    · simp only [Memory.find, hc, if_false] at h
      exact List.mem_cons_of_mem _ (ih h)

/-- In a canonical memory what an index lists is determined by what it reads as. -/
theorem Memory.find_of_read {c : Config} {m : Memory} (hm : Memory.wf c m = true) (a : Nat) :
    Memory.find a m =
      if Memory.read c m a = initByte c a then none else some (Memory.read c m a) := by
  cases h : Memory.find a m with
  | none => simp [Memory.read, h]
  | some v =>
    have := ((Memory.wf_iff c m).1 hm).2 _ (Memory.find_mem h)
    simp [Memory.read, h, this.2]

end Sys2Proof.Machine
end

