-- ==== Sys2Proof/Laws/Numbers.lean ====
section
/-! SUPPORT. The legal configurations in numbers, StartAddress and the counter, the register widths and the linear map. -/

namespace Sys2Proof

/-- What a legal configuration satisfies (R9). -/
theorem Config.wf_iff (c : Config) : c.wf = true ↔
    1 ≤ c.numChannels ∧ c.numChannels ≤ 512 ∧ c.actuatorMin ≤ c.actuatorMax
      ∧ c.actuatorMax < 2 ^ c.outWidth ∧ c.noiseThreshold ≤ 255 ∧ 10 ≤ c.addrCtrWidth
      ∧ c.initBuffer.length = c.numChannels := by
  simp [Config.wf, and_assoc]

/-- AddrCtrWidth ≥ 10, so the counter counts past 512. -/
theorem Config.addr_range {c : Config} (h : c.wf = true) : 1024 ≤ 2 ^ c.addrCtrWidth :=
  Nat.pow_le_pow_right (n := 2) (by decide) ((Config.wf_iff c).1 h).2.2.2.2.2.1

end Sys2Proof

namespace Sys2Proof.Machine

@[simp] theorem startAddress_toNat (s : State) :
    (startAddress s).toNat = s.baseAddress.toNat + 1 := by
  have h := s.baseAddress.isLt
  simp only [startAddress, BitVec.toNat_add, BitVec.truncate_eq_setWidth, BitVec.toNat_setWidth]
  simp
  omega

theorem startAddress_pos (s : State) : 1 ≤ (startAddress s).toNat := by simp

theorem startAddress_le (s : State) : (startAddress s).toNat ≤ 512 := by
  have h := s.baseAddress.isLt
  simp
  omega

theorem nextAddr_lt (s : State) : nextAddr s < 2 ^ s.cfg.addrCtrWidth :=
  Nat.mod_lt _ (Nat.pow_pos (by decide))

/-- Below StartAddress the counter does not wrap. -/
theorem nextAddr_of_lt {s : State} (hw : s.cfg.wf = true)
    (h : s.addrCtr < (startAddress s).toNat) : nextAddr s = s.addrCtr + 1 := by
  have h1 := startAddress_le s
  have h2 := Config.addr_range hw
  exact Nat.mod_eq_of_lt (by omega)

theorem gHit_iff (s : State) : gHit s = true ↔ nextAddr s = (startAddress s).toNat := by
  simp [gHit]

/-- FccWidth and IdxWidth are least widths. -/
theorem lt_two_pow_fccWidth (c : Config) : c.numChannels < 2 ^ fccWidth c := by
  unfold fccWidth
  split
  · simp [*]
  · exact Nat.lt_log2_self

theorem fccWidth_le {c : Config} {w : Nat} (h : c.numChannels < 2 ^ w) : fccWidth c ≤ w := by
  unfold fccWidth
  split
  · exact Nat.zero_le _
  · rename_i h0
    exact (Nat.log2_lt h0).2 h

theorem le_two_pow_idxWidth (c : Config) : c.numChannels ≤ 2 ^ idxWidth c := by
  unfold idxWidth
  split
  · simpa using ‹_›
  · have : c.numChannels - 1 < 2 ^ ((c.numChannels - 1).log2 + 1) := Nat.lt_log2_self
    omega

theorem one_le_idxWidth (c : Config) : 1 ≤ idxWidth c := by
  unfold idxWidth
  split <;> omega

theorem idxWidth_le {c : Config} {w : Nat} (h1 : 1 ≤ w) (h : c.numChannels ≤ 2 ^ w) :
    idxWidth c ≤ w := by
  unfold idxWidth
  split
  · exact h1
  · exact (Nat.log2_lt (by omega)).2 (by omega)

/-! ## The linear map -/

/-- The scaled value never exceeds the range, so the clamp changes nothing (R133). -/
theorem scaled_le (v : Byte) (k : Nat) : v.toNat * k / dmxMaxValue ≤ k := by
  have h : v.toNat ≤ 255 := by have := v.isLt; omega
  calc v.toNat * k / 255 ≤ 255 * k / 255 := Nat.div_le_div_right (Nat.mul_le_mul_right k h)
    _ = k := by simp

theorem mapValue_eq {c : Config} (h : c.actuatorMin ≤ c.actuatorMax) (v : Byte) :
    mapValue c v = c.actuatorMin + v.toNat * (c.actuatorMax - c.actuatorMin) / dmxMaxValue := by
  have := scaled_le v (c.actuatorMax - c.actuatorMin)
  unfold mapValue clamp
  generalize v.toNat * (c.actuatorMax - c.actuatorMin) / dmxMaxValue = q at *
  omega

theorem mapValue_bounds {c : Config} (h : c.actuatorMin ≤ c.actuatorMax) (v : Byte) :
    c.actuatorMin ≤ mapValue c v ∧ mapValue c v ≤ c.actuatorMax := by
  have := scaled_le v (c.actuatorMax - c.actuatorMin)
  rw [mapValue_eq h]
  generalize v.toNat * (c.actuatorMax - c.actuatorMin) / dmxMaxValue = q at *
  omega

theorem mapValue_mono {c : Config} (h : c.actuatorMin ≤ c.actuatorMax) {v w : Byte}
    (hvw : v.toNat ≤ w.toNat) : mapValue c v ≤ mapValue c w := by
  rw [mapValue_eq h, mapValue_eq h]
  exact Nat.add_le_add_left (Nat.div_le_div_right (Nat.mul_le_mul_right _ hvw)) _

end Sys2Proof.Machine
end

