-- ==== Sys2Proof/Laws/State.lean ====
section
/-! SUPPORT. The small lemmas of the state updates, one per field per update, and of the views. -/

namespace Sys2Proof.Machine

section gotoRx
variable (r : RxState) (s : State)
@[simp] theorem gotoRx_cfg : (gotoRx r s).cfg = s.cfg := rfl
@[simp] theorem gotoRx_rxState : (gotoRx r s).rxState = r := rfl
@[simp] theorem gotoRx_baseAddress : (gotoRx r s).baseAddress = s.baseAddress := rfl
@[simp] theorem gotoRx_addrCtr : (gotoRx r s).addrCtr = s.addrCtr := rfl
@[simp] theorem gotoRx_fcc : (gotoRx r s).fcc = s.fcc := rfl
@[simp] theorem gotoRx_buf : (gotoRx r s).buf = s.buf := rfl
@[simp] theorem gotoRx_updatePending : (gotoRx r s).updatePending = s.updatePending := rfl
@[simp] theorem gotoRx_mapPhase : (gotoRx r s).mapPhase = s.mapPhase := rfl
@[simp] theorem gotoRx_mapIdx : (gotoRx r s).mapIdx = s.mapIdx := rfl
@[simp] theorem gotoRx_schedule : (gotoRx r s).schedule = s.schedule := rfl
@[simp] theorem gotoRx_output : (gotoRx r s).output = s.output := rfl
end gotoRx

section emit
variable (es : List OutEvent) (s : State)
@[simp] theorem emit_cfg : (emit es s).cfg = s.cfg := rfl
@[simp] theorem emit_rxState : (emit es s).rxState = s.rxState := rfl
@[simp] theorem emit_baseAddress : (emit es s).baseAddress = s.baseAddress := rfl
@[simp] theorem emit_addrCtr : (emit es s).addrCtr = s.addrCtr := rfl
@[simp] theorem emit_fcc : (emit es s).fcc = s.fcc := rfl
@[simp] theorem emit_buf : (emit es s).buf = s.buf := rfl
@[simp] theorem emit_updatePending : (emit es s).updatePending = s.updatePending := rfl
@[simp] theorem emit_mapPhase : (emit es s).mapPhase = s.mapPhase := rfl
@[simp] theorem emit_mapIdx : (emit es s).mapIdx = s.mapIdx := rfl
@[simp] theorem emit_schedule : (emit es s).schedule = s.schedule := rfl
@[simp] theorem emit_output : (emit es s).output = s.output ++ es := rfl
end emit

section setPending
variable (s : State)
@[simp] theorem setPending_cfg : (setPending s).cfg = s.cfg := rfl
@[simp] theorem setPending_rxState : (setPending s).rxState = s.rxState := rfl
@[simp] theorem setPending_baseAddress : (setPending s).baseAddress = s.baseAddress := rfl
@[simp] theorem setPending_addrCtr : (setPending s).addrCtr = s.addrCtr := rfl
@[simp] theorem setPending_fcc : (setPending s).fcc = s.fcc := rfl
@[simp] theorem setPending_buf : (setPending s).buf = s.buf := rfl
@[simp] theorem setPending_updatePending : (setPending s).updatePending = true := rfl
@[simp] theorem setPending_mapPhase : (setPending s).mapPhase = s.mapPhase := rfl
@[simp] theorem setPending_mapIdx : (setPending s).mapIdx = s.mapIdx := rfl
@[simp] theorem setPending_schedule : (setPending s).schedule = s.schedule := rfl
@[simp] theorem setPending_output : (setPending s).output = s.output := rfl
end setPending

section clearPending
variable (s : State)
@[simp] theorem clearPending_cfg : (clearPending s).cfg = s.cfg := rfl
@[simp] theorem clearPending_rxState : (clearPending s).rxState = s.rxState := rfl
@[simp] theorem clearPending_baseAddress : (clearPending s).baseAddress = s.baseAddress := rfl
@[simp] theorem clearPending_addrCtr : (clearPending s).addrCtr = s.addrCtr := rfl
@[simp] theorem clearPending_fcc : (clearPending s).fcc = s.fcc := rfl
@[simp] theorem clearPending_buf : (clearPending s).buf = s.buf := rfl
@[simp] theorem clearPending_updatePending : (clearPending s).updatePending = false := rfl
@[simp] theorem clearPending_mapPhase : (clearPending s).mapPhase = s.mapPhase := rfl
@[simp] theorem clearPending_mapIdx : (clearPending s).mapIdx = s.mapIdx := rfl
@[simp] theorem clearPending_schedule : (clearPending s).schedule = s.schedule := rfl
@[simp] theorem clearPending_output : (clearPending s).output = s.output := rfl
end clearPending

section feed
variable (sts : List Statement) (s : State)
@[simp] theorem feed_cfg : (s.feed sts).cfg = s.cfg := rfl
@[simp] theorem feed_rxState : (s.feed sts).rxState = s.rxState := rfl
@[simp] theorem feed_baseAddress : (s.feed sts).baseAddress = s.baseAddress := rfl
@[simp] theorem feed_addrCtr : (s.feed sts).addrCtr = s.addrCtr := rfl
@[simp] theorem feed_fcc : (s.feed sts).fcc = s.fcc := rfl
@[simp] theorem feed_buf : (s.feed sts).buf = s.buf := rfl
@[simp] theorem feed_updatePending : (s.feed sts).updatePending = s.updatePending := rfl
@[simp] theorem feed_mapPhase : (s.feed sts).mapPhase = s.mapPhase := rfl
@[simp] theorem feed_mapIdx : (s.feed sts).mapIdx = s.mapIdx := rfl
@[simp] theorem feed_schedule : (s.feed sts).schedule = scheduleOf sts ++ s.schedule := rfl
@[simp] theorem feed_output : (s.feed sts).output = s.output := rfl
end feed

@[simp] theorem feed_nil (s : State) : s.feed [] = s := rfl

@[simp] theorem rxView_feed (sts : List Statement) (s : State) : (s.feed sts).rxView = s.rxView := rfl

@[simp] theorem mapView_feed (sts : List Statement) (s : State) :
    (s.feed sts).mapView = s.mapView := rfl

/-- Equal RX views agree on every component. -/
theorem rxView_eq_iff (s t : State) : s.rxView = t.rxView ↔
    s.cfg = t.cfg ∧ s.baseAddress = t.baseAddress ∧ s.rxState = t.rxState ∧ s.addrCtr = t.addrCtr
      ∧ s.fcc = t.fcc ∧ s.buf = t.buf := by
  simp [State.rxView]

/-- Equal MAP views agree on every component. -/
theorem mapView_eq_iff (s t : State) : s.mapView = t.mapView ↔
    s.cfg = t.cfg ∧ s.buf = t.buf ∧ s.updatePending = t.updatePending ∧ s.mapPhase = t.mapPhase
      ∧ s.mapIdx = t.mapIdx := by
  simp [State.mapView]

/-- A byte of the buffer is a function of the configuration and the memory. -/
theorem byteAt_congr {s t : State} (hc : s.cfg = t.cfg) (hb : s.buf = t.buf) (i : Nat) :
    s.byteAt i = t.byteAt i := by
  rw [State.byteAt, State.byteAt, hc, hb]

theorem byteAt_of_rxView {s t : State} (h : s.rxView = t.rxView) (i : Nat) :
    s.byteAt i = t.byteAt i :=
  byteAt_congr (congrArg RxView.cfg h) (congrArg RxView.buf h) i

end Sys2Proof.Machine
end

