-- ==== Sys2Proof/Laws/Words.lean ====
section
/-! SUPPORT. Decoding and encoding of words, field by field; the instruction each state and event selects. -/

namespace Sys2Proof

/-! ## Event and schedule words -/

theorem getLsbD_encodeEvent (e : RxEvent) (i : Nat) : (encodeEvent e).getLsbD i =
    if i < 8 then e.data.getLsbD i else (BitVec.ofBool e.fe).getLsbD (i - 8) :=
  BitVec.getLsbD_append

@[simp] theorem decodeEvent_encodeEvent (e : RxEvent) : decodeEvent (encodeEvent e) = e := by
  have h : (encodeEvent e).extractLsb' 0 8 = e.data := by
    apply BitVec.eq_of_getLsbD_eq
    intro i hi
    rw [BitVec.getLsbD_extractLsb', getLsbD_encodeEvent]
    simp [hi]
  rw [decodeEvent, h, getLsbD_encodeEvent]
  simp

theorem encodeEvent_decodeEvent (w : EventWord) : encodeEvent (decodeEvent w) = w := by
  apply BitVec.eq_of_getLsbD_eq
  intro i hi
  rw [getLsbD_encodeEvent, decodeEvent]
  simp only [BitVec.getLsbD_extractLsb']
  split
  · simp [*]
  · have : i = 8 := by omega
    simp [this]

theorem getLsbD_encode_rx (e : RxEvent) (i : Nat) : (encodeStatement (.rx e)).getLsbD i =
    if i < 9 then (encodeEvent e).getLsbD i else (BitVec.ofBool false).getLsbD (i - 9) :=
  BitVec.getLsbD_append

theorem eventBits_encode (e : RxEvent) :
    (encodeStatement (.rx e)).extractLsb' 0 9 = encodeEvent e := by
  apply BitVec.eq_of_getLsbD_eq
  intro i hi
  rw [BitVec.getLsbD_extractLsb', getLsbD_encode_rx]
  simp [hi]

theorem agentBit_encode_rx (e : RxEvent) : (encodeStatement (.rx e)).getLsbD 9 = false := by
  rw [getLsbD_encode_rx]
  simp

@[simp] theorem decodeStatement_encodeStatement (st : Statement) :
    decodeStatement (encodeStatement st) = .ok st := by
  cases st with
  | rx e => simp only [decodeStatement, agentBit_encode_rx, eventBits_encode]; simp
  | map => decide

/-- The words that are no statement (R80). -/
theorem decodeStatement_error_iff (w : SchedWord) :
    (∃ err, decodeStatement w = .error err) ↔
      w.getLsbD 9 = true ∧ w.extractLsb' 0 9 ≠ 0#9 := by
  unfold decodeStatement
  split <;> rename_i h
  · split <;> rename_i h' <;> simp_all
  · simp_all

/-- A schedule word is its agent bit above its event bits. -/
theorem agentBit_append_eventBits (w : SchedWord) :
    BitVec.ofBool (w.getLsbD 9) ++ w.extractLsb' 0 9 = w := by
  apply BitVec.eq_of_getLsbD_eq
  intro i hi
  simp only [BitVec.getLsbD_append, BitVec.getLsbD_extractLsb']
  split
  · simp [*]
  · have : i = 9 := by omega
    simp [this]

/-! ## Decode words -/

theorem getLsbD_rxWordOf (row : BitVec 3) (d : Byte) (i : Nat) : (rxWordOf row d).getLsbD i =
    if i < 8 then d.getLsbD i else row.getLsbD (i - 8) :=
  BitVec.getLsbD_append

@[simp] theorem rxData_rxWordOf (row : BitVec 3) (d : Byte) : rxData (rxWordOf row d) = d := by
  apply BitVec.eq_of_getLsbD_eq
  intro i hi
  rw [rxData, BitVec.getLsbD_extractLsb', getLsbD_rxWordOf]
  simp [hi]

theorem rowBit_rxWordOf (row : BitVec 3) (d : Byte) (k : Nat) :
    (rxWordOf row d).getLsbD (k + 8) = row.getLsbD k := by
  rw [getLsbD_rxWordOf, if_neg (by omega), Nat.add_sub_cancel]

/-- The RX decoder on a word given as row bits and data byte. -/
theorem decodeRx_rxWordOf (row : BitVec 3) (d : Byte) (g : Bool) :
    decodeRx (rxWordOf row d) g =
      match row.getLsbD 2, row.getLsbD 1, row.getLsbD 0 with
      | false, false, true => .rxIdleBreak d
      | false, false, false => .rxIdleIgnore d
      | false, true, false => if d = 0#8 then .rxBdStart else .rxBdAbort d
      | true, false, false => if g then .rxFsFirst d else .rxFsSkip d
      | true, true, false => .rxRcvStore d
      | false, true, true => .rxBdFe d
      | true, false, true => .rxFsFe d
      | true, true, true => .rxRcvFe d := by
  have h0 : (rxWordOf row d).getLsbD 8 = row.getLsbD 0 := rowBit_rxWordOf row d 0
  have h1 : (rxWordOf row d).getLsbD 9 = row.getLsbD 1 := rowBit_rxWordOf row d 1
  have h2 : (rxWordOf row d).getLsbD 10 = row.getLsbD 2 := rowBit_rxWordOf row d 2
  unfold decodeRx
  cases r2 : row.getLsbD 2 <;> cases r1 : row.getLsbD 1 <;> cases r0 : row.getLsbD 0 <;>
    simp only [h0, h1, h2, r0, r1, r2, rxData_rxWordOf]

/-- Every RX decode word is its row bits followed by its data byte. -/
theorem rxWordOf_fields (w : RxWord) : rxWordOf (w.extractLsb' 8 3) (rxData w) = w := by
  apply BitVec.eq_of_getLsbD_eq
  intro i hi
  simp only [rxWordOf, rxData, BitVec.getLsbD_append, BitVec.getLsbD_extractLsb']
  split
  · simp [*]
  · have h : i - 8 < 3 := by omega
    have h' : 8 + (i - 8) = i := by omega
    simp [h, h']

/-- The mask 0x700 keeps the row bits of an RX decode word and drops its data byte. -/
theorem rxWordOf_masked (row p : BitVec 3) (d : Byte) :
    (rxWordOf row d &&& 0x700#11 == rxWordOf p 0#8) = (row == p) := by
  rw [Bool.eq_iff_iff, beq_iff_eq, beq_iff_eq]
  constructor
  · intro h
    apply BitVec.eq_of_getLsbD_eq
    intro i hi
    have hm : BitVec.getLsbD 0x700#11 (i + 8) = true := by
      have : i = 0 ∨ i = 1 ∨ i = 2 := by omega
      rcases this with rfl | rfl | rfl <;> rfl
    have hbit := congrArg (fun x => BitVec.getLsbD x (i + 8)) h
    simpa only [BitVec.getLsbD_and, rowBit_rxWordOf, hm, Bool.and_true] using hbit
  · rintro rfl
    apply BitVec.eq_of_getLsbD_eq
    intro i hi
    have hm : (if i < 8 then !BitVec.getLsbD 0x700#11 i else BitVec.getLsbD 0x700#11 i) = true := by
      revert i
      decide
    rw [BitVec.getLsbD_and, getLsbD_rxWordOf, getLsbD_rxWordOf]
    split <;> simp_all

/-- A property of RX decode words holds if it holds of every row with every data byte. -/
theorem rxWord_forall {p : RxWord → Prop} (h : ∀ (row : BitVec 3) (d : Byte), p (rxWordOf row d))
    (w : RxWord) : p w := rxWordOf_fields w ▸ h _ _

end Sys2Proof

namespace Sys2Proof.Machine

/-! ## Selection -/

theorem rxWord_eq (s : State) (e : RxEvent) :
    rxWord s e = rxWordOf (rxCode s.rxState ++ BitVec.ofBool (effectiveFe s e.fe)) e.data := rfl

/-- The instruction an event selects, by rx_state and fe' (R73). -/
theorem selectRx_eq (e : RxEvent) (s : State) :
    selectRx e s =
      match s.rxState, effectiveFe s e.fe with
      | .idle, true => .rxIdleBreak e.data
      | .idle, false => .rxIdleIgnore e.data
      | .breakDetected, false => if e.data = 0#8 then .rxBdStart else .rxBdAbort e.data
      | .frameStarted, false => if gHit s then .rxFsFirst e.data else .rxFsSkip e.data
      | .receiving, false => .rxRcvStore e.data
      | .breakDetected, true => .rxBdFe e.data
      | .frameStarted, true => .rxFsFe e.data
      | .receiving, true => .rxRcvFe e.data := by
  unfold selectRx
  rw [rxWord_eq, decodeRx_rxWordOf]
  cases s.rxState <;> cases effectiveFe s e.fe <;> rfl

@[simp] theorem effectiveFe_false (s : State) : effectiveFe s false = false := by
  unfold effectiveFe
  cases s.cfg.fePolicy <;> cases s.rxState <;> rfl

theorem effectiveFe_idle {s : State} (h : s.rxState = .idle) (fe : Bool) :
    effectiveFe s fe = fe := by
  unfold effectiveFe
  rw [h]
  cases s.cfg.fePolicy <;> rfl

theorem effectiveFe_reset {s : State} (h : s.cfg.fePolicy = .resetToIdle) (fe : Bool) :
    effectiveFe s fe = fe := by
  unfold effectiveFe
  rw [h]

theorem effectiveFe_ignore {s : State} (h : s.cfg.fePolicy = .ignoreFlag)
    (h' : s.rxState ≠ .idle) (fe : Bool) : effectiveFe s fe = false := by
  unfold effectiveFe
  rw [h]
  cases hr : s.rxState <;> simp_all

/-- The instruction a MAP step selects, by map_phase (R76). -/
theorem selectMap_eq (s : State) :
    selectMap s =
      match s.mapPhase with
      | .poll => .mapPoll s.updatePending
      | .clear => .mapClear s.updatePending
      | .chan => .mapChan s.updatePending
      | .reserved => .mapReserved s.updatePending := by
  unfold selectMap mapWord
  cases s.mapPhase <;> cases s.updatePending <;> rfl

end Sys2Proof.Machine
end

