-- ==== Sys2Proof/Laws/Exec.lean ====
section
/-! SUPPORT. What the shared operations and the instructions can do, said once: the cases of BufWrite and of capturing a byte, and that no instruction reads or writes the schedule. -/

namespace Sys2Proof.Machine

theorem bufWrite_of_lt {i : Nat} (v : Byte) {s : State} (h : i < s.cfg.numChannels) :
    bufWrite i v s = .next { s with buf := Memory.write s.cfg s.buf i v } := if_pos h

theorem bufWrite_of_ge {i : Nat} (v : Byte) {s : State} (h : s.cfg.numChannels ≤ i) :
    bufWrite i v s = .fault .bufferIndexOutOfRange := if_neg (by omega)

theorem bufRead_of_lt {i : Nat} {s : State} (h : i < s.cfg.numChannels) :
    bufRead i s = some (s.byteAt i) := if_pos h

theorem bufRead_of_ge {i : Nat} {s : State} (h : s.cfg.numChannels ≤ i) : bufRead i s = none :=
  if_neg (by omega)

/-- Where RX goes after the byte of index i is captured (R107, R108). -/
abbrev afterCapture (n i : Nat) : RxState := if i + 1 = n then .idle else .receiving

/-- Capturing a byte inside the buffer. -/
theorem captureByte_of_lt {i : Nat} (d : Byte) {s : State} (h : i < s.cfg.numChannels) :
    captureByte i d s = .next
      { s with
        fcc := i + 1
        buf := Memory.write s.cfg s.buf i d
        rxState := afterCapture s.cfg.numChannels i } := by
  rw [captureByte, bufWrite_of_lt d h]
  rfl

/-- Capturing a byte answers a next state only inside the buffer. -/
theorem captureByte_next {i : Nat} {d : Byte} {s t : State} (h : captureByte i d s = .next t) :
    i < s.cfg.numChannels ∧ t =
      { s with
        fcc := i + 1
        buf := Memory.write s.cfg s.buf i d
        rxState := afterCapture s.cfg.numChannels i } := by
  by_cases hi : i < s.cfg.numChannels
  · rw [captureByte_of_lt d hi] at h
    exact ⟨hi, (Host.Outcome.next.inj h).symm⟩
  · rw [captureByte, bufWrite_of_ge d (by omega)] at h
    cases h

theorem execRxFsFirst_of_pos (d : Byte) {s : State} (h : 1 ≤ s.cfg.numChannels) :
    exec (.rxFsFirst d) s = .next
      { s with
        addrCtr := nextAddr s
        fcc := 1
        buf := Memory.write s.cfg s.buf 0 d
        updatePending := true
        rxState := afterCapture s.cfg.numChannels 0 } := by
  show captureByte 0 d (setPending { s with addrCtr := nextAddr s }) = _
  rw [captureByte_of_lt d (by exact h)]
  rfl

theorem execRxFsFirst_of_zero (d : Byte) {s : State} (h : s.cfg.numChannels = 0) :
    exec (.rxFsFirst d) s = .fault .bufferIndexOutOfRange := by
  show captureByte 0 d (setPending { s with addrCtr := nextAddr s }) = _
  rw [captureByte, bufWrite_of_ge d (by exact Nat.le_of_eq h)]

theorem execRxRcvStore_of_range (d : Byte) {s : State} (h1 : 1 ≤ s.fcc)
    (h2 : s.fcc < s.cfg.numChannels) :
    exec (.rxRcvStore d) s = .next
      { s with
        fcc := s.fcc + 1
        buf := Memory.write s.cfg s.buf s.fcc d
        rxState := afterCapture s.cfg.numChannels s.fcc } := by
  show (if 1 ≤ s.fcc ∧ s.fcc < s.cfg.numChannels then captureByte s.fcc d s else _) = _
  rw [if_pos ⟨h1, h2⟩, captureByte_of_lt d h2]

theorem execRxRcvStore_out_of_range (d : Byte) {s : State}
    (h : ¬ (1 ≤ s.fcc ∧ s.fcc < s.cfg.numChannels)) :
    exec (.rxRcvStore d) s = .fault .captureCountOutOfRange := if_neg h

/-- MAP_CHAN before the last channel. -/
theorem execMapChan_more (f : Bool) {s : State} (h : s.mapIdx + 1 < s.cfg.numChannels) :
    exec (.mapChan f) s = .next
      { s with
        output := s.output ++ channelEvents s.cfg s.mapIdx (s.byteAt s.mapIdx)
        mapIdx := s.mapIdx + 1 } := by
  show execMapChan s = _
  rw [execMapChan, bufRead_of_lt (by omega)]
  show Host.Outcome.next (advanceChannel _) = _
  rw [advanceChannel, if_pos (by exact h)]
  rfl

/-- MAP_CHAN at the last channel. -/
theorem execMapChan_last (f : Bool) {s : State} (h : s.mapIdx + 1 = s.cfg.numChannels) :
    exec (.mapChan f) s = .next
      { s with
        output := s.output ++ channelEvents s.cfg s.mapIdx (s.byteAt s.mapIdx)
        mapPhase := .poll
        mapIdx := 0 } := by
  show execMapChan s = _
  rw [execMapChan, bufRead_of_lt (by omega)]
  show Host.Outcome.next (advanceChannel _) = _
  rw [advanceChannel, if_neg (by exact (by omega : ¬ s.mapIdx + 1 < s.cfg.numChannels))]
  rfl

theorem execMapChan_of_ge (f : Bool) {s : State} (h : s.cfg.numChannels ≤ s.mapIdx) :
    exec (.mapChan f) s = .fault .bufferIndexOutOfRange := by
  show execMapChan s = _
  rw [execMapChan, bufRead_of_ge h]

/-- Replace the schedule of the state an outcome holds. -/
def onSchedule (ws : List SchedWord) :
    Host.Outcome State Fault Refusal → Host.Outcome State Fault Refusal
  | .next t => .next { t with schedule := ws }
  | .fault r => .fault r
  | .refused r => .refused r

/-- No instruction reads or writes the schedule. -/
theorem exec_schedule (i : Instr) (s : State) (ws : List SchedWord) :
    exec i { s with schedule := ws } = onSchedule ws (exec i s) := by
  cases i with
  | rxFsFirst d =>
    by_cases h : 1 ≤ s.cfg.numChannels
    · rw [execRxFsFirst_of_pos d h, execRxFsFirst_of_pos d (by exact h)]
      rfl
    · have h0 : s.cfg.numChannels = 0 := by omega
      rw [execRxFsFirst_of_zero d h0, execRxFsFirst_of_zero d (by exact h0)]
      rfl
  | rxRcvStore d =>
    by_cases h : 1 ≤ s.fcc ∧ s.fcc < s.cfg.numChannels
    · rw [execRxRcvStore_of_range d h.1 h.2,
        execRxRcvStore_of_range d (by exact h.1) (by exact h.2)]
      rfl
    · rw [execRxRcvStore_out_of_range d h, execRxRcvStore_out_of_range d (by exact h)]
      rfl
  | mapPoll f =>
    simp only [exec, execMapPoll]
    split <;> rfl
  | mapChan f =>
    rcases Nat.lt_trichotomy (s.mapIdx + 1) s.cfg.numChannels with h | h | h
    · rw [execMapChan_more f h, execMapChan_more f (by exact h)]
      rfl
    · rw [execMapChan_last f h, execMapChan_last f (by exact h)]
      rfl
    · have h' : s.cfg.numChannels ≤ s.mapIdx := by omega
      rw [execMapChan_of_ge f h', execMapChan_of_ge f (by exact h')]
      rfl
  | _ => rfl

end Sys2Proof.Machine
end

