-- ==== Sys2Proof/Laws/Step.lean ====
section
/-! SUPPORT. One step and a run of steps over statements: which instruction a step runs, and a run over fed statements as a fold that leaves the schedule out. -/

namespace Sys2Proof.Machine

/-- What a statement does to a state whose schedule is left out of account (R80). -/
def deliver (st : Statement) (s : State) : Host.Outcome State Fault Refusal :=
  match st with
  | .rx e => exec (selectRx e s) s
  | .map => exec (selectMap s) s

/-- Delivering statements one after another. -/
def deliverAll : List Statement → State → Host.Outcome State Fault Refusal
  | [], s => .next s
  | st :: sts, s =>
    match deliver st s with
    | .next t => deliverAll sts t
    | .fault r => .fault r
    | .refused r => .refused r

/-- Selection does not read the schedule. -/
theorem deliver_feed (st : Statement) (sts : List Statement) (s : State) :
    deliver st (s.feed sts) = onSchedule (scheduleOf sts ++ s.schedule) (deliver st s) := by
  cases st with
  | rx e => exact exec_schedule (selectRx e s) s _
  | map => exact exec_schedule (selectMap s) s _

/-- A step runs the next statement. -/
theorem step_feed_cons {s : State} (h : s.cfg.wf = true) (st : Statement) (sts : List Statement) :
    step (s.feed (st :: sts)) = deliver st (s.feed sts) := by
  have hs : (s.feed (st :: sts)).schedule = encodeStatement st :: (s.feed sts).schedule := rfl
  unfold step fetch
  rw [if_pos (by exact h), hs]
  simp only [decodeStatement_encodeStatement]
  cases st <;> rfl

theorem step_feed_one {s : State} (h : s.cfg.wf = true) (st : Statement) :
    step (s.feed [st]) = deliver st s := step_feed_cons h st []

/-- With nothing left in the schedule a step is MAP's. -/
theorem step_nil {s : State} (h : s.cfg.wf = true) (hs : s.schedule = []) :
    step s = exec (selectMap s) s := by
  unfold step fetch
  rw [if_pos h, hs]

/-- What a step that answers a next state did. -/
theorem step_cases {s t : State} (h : step s = .next t) : s.cfg.wf = true ∧
    ((s.schedule = [] ∧ deliver .map s = .next t)
      ∨ ∃ st w rest, s.schedule = w :: rest ∧ decodeStatement w = .ok st
          ∧ deliver st { s with schedule := rest } = .next t) := by
  unfold step fetch at h
  by_cases hw : s.cfg.wf = true
  · rw [if_pos hw] at h
    refine ⟨hw, ?_⟩
    cases hs : s.schedule with
    | nil =>
      rw [hs] at h
      exact .inl ⟨rfl, h⟩
    | cons w rest =>
      rw [hs] at h
      refine .inr ?_
      cases hd : decodeStatement w with
      | error err => simp only [hd] at h; cases h
      | ok st =>
        simp only [hd] at h
        refine ⟨st, w, rest, rfl, hd, ?_⟩
        cases st <;> exact h
  · rw [if_neg hw] at h
    cases h

/-! ## What one instruction leaves alone -/

/-- Every instruction keeps the configuration, the base address and the schedule. -/
theorem exec_keeps {i : Instr} {s t : State} (h : exec i s = .next t) :
    t.cfg = s.cfg ∧ t.baseAddress = s.baseAddress ∧ t.schedule = s.schedule := by
  cases i with
  | rxFsFirst d =>
    obtain ⟨-, rfl⟩ := captureByte_next h
    exact ⟨rfl, rfl, rfl⟩
  | rxRcvStore d =>
    by_cases hr : 1 ≤ s.fcc ∧ s.fcc < s.cfg.numChannels
    · rw [execRxRcvStore_of_range d hr.1 hr.2] at h
      cases h
      exact ⟨rfl, rfl, rfl⟩
    · rw [execRxRcvStore_out_of_range d hr] at h
      cases h
  | mapPoll f =>
    simp only [exec, execMapPoll, Host.Outcome.next.injEq] at h
    subst h
    split <;> exact ⟨rfl, rfl, rfl⟩
  | mapChan f =>
    rcases Nat.lt_trichotomy (s.mapIdx + 1) s.cfg.numChannels with hi | hi | hi
    · rw [execMapChan_more f hi] at h
      cases h
      exact ⟨rfl, rfl, rfl⟩
    · rw [execMapChan_last f hi] at h
      cases h
      exact ⟨rfl, rfl, rfl⟩
    · rw [execMapChan_of_ge f (by omega)] at h
      cases h
  | mapReserved f => cases h
  | _ => cases h; exact ⟨rfl, rfl, rfl⟩

theorem deliver_keeps {st : Statement} {s t : State} (h : deliver st s = .next t) :
    t.cfg = s.cfg ∧ t.baseAddress = s.baseAddress ∧ t.schedule = s.schedule := by
  cases st <;> exact exec_keeps h

/-- A run over fed statements is delivering them, and leaves the rest of the schedule. -/
theorem run_feed {s t : State} (hw : s.cfg.wf = true) {sts : List Statement}
    (h : deliverAll sts s = .next t) : run sts.length (s.feed sts) = .next t := by
  induction sts generalizing s with
  | nil => exact h
  | cons st sts ih =>
    show (match step (s.feed (st :: sts)) with
      | .next t => run sts.length t
      | .fault r => .fault r
      | .refused r => .refused r) = _
    rw [step_feed_cons hw, deliver_feed]
    unfold deliverAll at h
    cases hd : deliver st s with
    | next u =>
      rw [hd] at h
      obtain ⟨hc, -, hs⟩ := deliver_keeps hd
      have hu : ({ u with schedule := scheduleOf sts ++ s.schedule } : State) = u.feed sts := by
        rw [State.feed, hs]
      simp only [onSchedule, hu]
      exact ih (hc ▸ hw) h
    | fault r => rw [hd] at h; cases h
    | refused r => rw [hd] at h; cases h

/-- The instruction a statement selects. -/
def select : Statement → State → Instr
  | .rx e => selectRx e
  | .map => selectMap

/-- What the first step over fed statements ran, and the history after it. -/
theorem history_feed_cons {s t : State} (hw : s.cfg.wf = true) {st : Statement}
    (sts : List Statement) (h : deliver st s = .next t) :
    history (st :: sts).length (s.feed (st :: sts)) =
      (select st s, s.feed sts) :: history sts.length (t.feed sts) := by
  have hf : fetch (s.feed (st :: sts)) = .ok (select st s, s.feed sts) := by
    unfold fetch
    rw [if_pos (by exact hw)]
    show (match decodeStatement (encodeStatement st) with
      | .ok (.rx e) => _ | .ok .map => _ | .error _ => _) = _
    rw [decodeStatement_encodeStatement]
    cases st <;> rfl
  have he : exec (select st s) (s.feed sts) = .next (t.feed sts) := by
    have := deliver_feed st sts s
    rw [h] at this
    simp only [onSchedule] at this
    have hu : t.feed sts = { t with schedule := scheduleOf sts ++ s.schedule } := by
      rw [State.feed, (deliver_keeps h).2.2]
    rw [hu, ← this]
    cases st <;> rfl
  show history (sts.length + 1) _ = _
  rw [history, hf]
  simp only [he]

/-- With nothing to run there is no history. -/
@[simp] theorem history_zero (s : State) : history 0 s = [] := rfl

theorem deliverAll_append (sts sts' : List Statement) (s t u : State)
    (h : deliverAll sts s = .next t) (h' : deliverAll sts' t = .next u) :
    deliverAll (sts ++ sts') s = .next u := by
  induction sts generalizing s with
  | nil => cases h; exact h'
  | cons st sts ih =>
    show (match deliver st s with
      | .next v => deliverAll (sts ++ sts') v
      | .fault r => .fault r
      | .refused r => .refused r) = _
    unfold deliverAll at h
    cases hd : deliver st s with
    | next v => rw [hd] at h; exact ih v h
    | fault r => rw [hd] at h; cases h
    | refused r => rw [hd] at h; cases h

theorem deliverAll_cons {st : Statement} {sts : List Statement} {s t : State}
    (h : deliver st s = .next t) : deliverAll (st :: sts) s = deliverAll sts t := by
  rw [deliverAll, h]

/-- Past a first part of the statements, the history is that of the rest. -/
theorem history_drop {s t : State} (hw : s.cfg.wf = true) {sts : List Statement}
    (sts' : List Statement) (h : deliverAll sts s = .next t) :
    (history (sts ++ sts').length (s.feed (sts ++ sts'))).drop sts.length =
      history sts'.length (t.feed sts') := by
  induction sts generalizing s with
  | nil => cases h; rfl
  | cons st sts ih =>
    unfold deliverAll at h
    cases hd : deliver st s with
    | next u =>
      rw [hd] at h
      show List.drop (sts.length + 1)
        (history (st :: (sts ++ sts')).length (s.feed (st :: (sts ++ sts')))) = _
      rw [history_feed_cons hw _ hd, List.drop_succ_cons]
      exact ih ((deliver_keeps hd).1 ▸ hw) h
    | fault r => rw [hd] at h; cases h
    | refused r => rw [hd] at h; cases h

end Sys2Proof.Machine
end

