-- ==== Sys2Proof/Laws/Deliver.lean ====
section
/-! SUPPORT. What each kind of event and each MAP phase does to a state, as the equations the laws of runs are proved from; and that RX's state depends on no MAP step. -/

namespace Sys2Proof.Machine

/-! ## Events -/

theorem deliver_break_idle {s : State} (h : s.rxState = .idle) (b : Byte) :
    deliver (.brk b) s =
      .next { s with addrCtr := 0, output := s.output ++ [.breakSeen], rxState := .breakDetected } := by
  show exec (selectRx _ s) s = _
  rw [selectRx_eq, h, effectiveFe_idle h]
  rfl

theorem deliver_byte_idle {s : State} (h : s.rxState = .idle) (d : Byte) :
    deliver (.byte d) s = .next s := by
  show exec (selectRx _ s) s = _
  rw [selectRx_eq, h, effectiveFe_idle h]
  rfl

theorem deliver_start_code {s : State} (h : s.rxState = .breakDetected) :
    deliver (.byte 0#8) s = .next { s with rxState := .frameStarted } := by
  have hsel : selectRx ⟨false, 0#8⟩ s = .rxBdStart := by
    rw [selectRx_eq, h, effectiveFe_false]
    rfl
  show exec (selectRx _ s) s = _
  rw [hsel]
  rfl

theorem deliver_other_start_code {s : State} (h : s.rxState = .breakDetected) {d : Byte}
    (hd : d ≠ 0#8) : deliver (.byte d) s = .next { s with rxState := .idle } := by
  have hsel : selectRx ⟨false, d⟩ s = .rxBdAbort d := by
    rw [selectRx_eq, h, effectiveFe_false]
    exact if_neg hd
  show exec (selectRx _ s) s = _
  rw [hsel]
  rfl

theorem deliver_skip {s : State} (h : s.rxState = .frameStarted) (hg : gHit s = false) (d : Byte) :
    deliver (.byte d) s = .next { s with addrCtr := nextAddr s } := by
  have hsel : selectRx ⟨false, d⟩ s = .rxFsSkip d := by
    rw [selectRx_eq, h, effectiveFe_false]
    simp only [hg]
    rfl
  show exec (selectRx _ s) s = _
  rw [hsel]
  rfl

theorem deliver_first {s : State} (h : s.rxState = .frameStarted) (hg : gHit s = true)
    (hn : 1 ≤ s.cfg.numChannels) (d : Byte) :
    deliver (.byte d) s = .next
      { s with
        addrCtr := nextAddr s
        fcc := 1
        buf := Memory.write s.cfg s.buf 0 d
        updatePending := true
        rxState := afterCapture s.cfg.numChannels 0 } := by
  have hsel : selectRx ⟨false, d⟩ s = .rxFsFirst d := by
    rw [selectRx_eq, h, effectiveFe_false]
    simp only [hg]
    rfl
  show exec (selectRx _ s) s = _
  rw [hsel, execRxFsFirst_of_pos d hn]

theorem deliver_store {s : State} (h : s.rxState = .receiving) (h1 : 1 ≤ s.fcc)
    (h2 : s.fcc < s.cfg.numChannels) (d : Byte) :
    deliver (.byte d) s = .next
      { s with
        fcc := s.fcc + 1
        buf := Memory.write s.cfg s.buf s.fcc d
        rxState := afterCapture s.cfg.numChannels s.fcc } := by
  show exec (selectRx _ s) s = _
  rw [selectRx_eq, h, effectiveFe_false]
  exact execRxRcvStore_of_range d h1 h2

theorem deliver_break_outside_idle {s : State} (hp : s.cfg.fePolicy = .resetToIdle)
    (h : s.rxState ≠ .idle) (b : Byte) :
    deliver (.brk b) s = .next { s with rxState := .idle } := by
  show exec (selectRx _ s) s = _
  rw [selectRx_eq, effectiveFe_reset hp]
  cases hr : s.rxState with
  | idle => exact absurd hr h
  | breakDetected => rfl
  | frameStarted => rfl
  | receiving => rfl

/-! ## MAP steps -/

theorem deliver_poll {s : State} (h : s.mapPhase = .poll) :
    deliver .map s = .next (if s.updatePending then { s with mapPhase := .clear } else s) := by
  show exec (selectMap s) s = _
  rw [selectMap_eq, h]
  rfl

theorem deliver_clear {s : State} (h : s.mapPhase = .clear) :
    deliver .map s = .next { s with updatePending := false, mapIdx := 0, mapPhase := .chan } := by
  show exec (selectMap s) s = _
  rw [selectMap_eq, h]
  rfl

theorem deliver_chan_more {s : State} (h : s.mapPhase = .chan)
    (hi : s.mapIdx + 1 < s.cfg.numChannels) :
    deliver .map s = .next
      { s with
        output := s.output ++ channelEvents s.cfg s.mapIdx (s.byteAt s.mapIdx)
        mapIdx := s.mapIdx + 1 } := by
  have hsel : selectMap s = .mapChan s.updatePending := by rw [selectMap_eq, h]
  show exec (selectMap s) s = _
  rw [hsel]
  exact execMapChan_more _ hi

theorem deliver_chan_last {s : State} (h : s.mapPhase = .chan)
    (hi : s.mapIdx + 1 = s.cfg.numChannels) :
    deliver .map s = .next
      { s with
        output := s.output ++ channelEvents s.cfg s.mapIdx (s.byteAt s.mapIdx)
        mapPhase := .poll
        mapIdx := 0 } := by
  have hsel : selectMap s = .mapChan s.updatePending := by rw [selectMap_eq, h]
  show exec (selectMap s) s = _
  rw [hsel]
  exact execMapChan_last _ hi

/-- A MAP step leaves everything RX owns or reads alone. -/
theorem rxView_deliver_map {s t : State} (h : deliver .map s = .next t) : t.rxView = s.rxView := by
  cases hp : s.mapPhase with
  | poll =>
    rw [deliver_poll hp] at h
    cases h
    split <;> rfl
  | clear =>
    rw [deliver_clear hp] at h
    cases h
    rfl
  | chan =>
    rcases Nat.lt_trichotomy (s.mapIdx + 1) s.cfg.numChannels with hi | hi | hi
    · rw [deliver_chan_more hp hi] at h
      cases h
      rfl
    · rw [deliver_chan_last hp hi] at h
      cases h
      rfl
    · change exec (selectMap s) s = _ at h
      rw [selectMap_eq, hp] at h
      simp only [execMapChan_of_ge s.updatePending (show s.cfg.numChannels ≤ s.mapIdx by omega)] at h
      cases h
  | reserved =>
    change exec (selectMap s) s = _ at h
    rw [selectMap_eq, hp] at h
    cases h

/-- What an event selects depends on RX's view alone. -/
theorem selectRx_of_rxView {s s' : State} (h : s.rxView = s'.rxView) (e : RxEvent) :
    selectRx e s = selectRx e s' := by
  obtain ⟨hc, hb, hr, ha, -, -⟩ := (rxView_eq_iff s s').1 h
  have hf : effectiveFe s e.fe = effectiveFe s' e.fe := by unfold effectiveFe; rw [hc, hr]
  have hg : gHit s = gHit s' := by unfold gHit nextAddr startAddress; rw [hc, hb, ha]
  rw [selectRx_eq, selectRx_eq, hr, hf, hg]

end Sys2Proof.Machine
end

