-- ==== Sys2Proof/Laws/Agents.lean ====
section
/-! SUPPORT. What a step of each agent can do, said once: an RX step to MAP's side of the state, to the flag and to the output, and the same from every state that looks alike to RX; a MAP step to the flag; and taking a run over statements apart. -/

namespace Sys2Proof.Machine

/-- An RX step selects one of eight RX instructions. -/
theorem selectRx_cases {p : Instr → Prop} {s : State} (e : RxEvent)
    (hBrk : ∀ d, p (.rxIdleBreak d)) (hIgn : ∀ d, p (.rxIdleIgnore d)) (hStart : p .rxBdStart)
    (hAbort : ∀ d, p (.rxBdAbort d)) (hSkip : ∀ d, p (.rxFsSkip d)) (hFirst : ∀ d, p (.rxFsFirst d))
    (hStore : ∀ d, p (.rxRcvStore d))
    (hFe : ∀ d, p (.rxBdFe d) ∧ p (.rxFsFe d) ∧ p (.rxRcvFe d)) : p (selectRx e s) := by
  rw [selectRx_eq]
  cases s.rxState <;> cases effectiveFe s e.fe
  · exact hIgn _
  · exact hBrk _
  · show p (if _ then _ else _)
    split
    · exact hStart
    · exact hAbort _
  · exact (hFe _).1
  · show p (if _ then _ else _)
    split
    · exact hFirst _
    · exact hSkip _
  · exact (hFe _).2.1
  · exact hStore _
  · exact (hFe _).2.2

/-- What an RX instruction adds to the output (R100, R101). -/
def rxEmits : Instr → List OutEvent
  | .rxIdleBreak _ => [.breakSeen]
  | _ => []

/-- Whether an RX instruction sets the flag (R107). -/
def rxSets : Instr → Bool
  | .rxFsFirst _ => true
  | _ => false

/-- An RX step leaves map_phase and map_idx alone (R168), sets the flag or leaves it, and appends to
the output. -/
theorem deliver_rx_effects {e : RxEvent} {s t : State} (h : deliver (.rx e) s = .next t) :
    t.mapPhase = s.mapPhase ∧ t.mapIdx = s.mapIdx
      ∧ t.updatePending = (s.updatePending || rxSets (selectRx e s))
      ∧ t.output = s.output ++ rxEmits (selectRx e s) := by
  change exec (selectRx e s) s = _ at h
  revert h
  refine selectRx_cases (p := fun i => exec i s = .next t → t.mapPhase = s.mapPhase
    ∧ t.mapIdx = s.mapIdx ∧ t.updatePending = (s.updatePending || rxSets i)
    ∧ t.output = s.output ++ rxEmits i) e
    ?hBrk ?hIgn ?hStart ?hAbort ?hSkip ?hFirst ?hStore ?hFe
  case hFirst =>
    intro d h
    obtain ⟨-, rfl⟩ := captureByte_next h
    exact ⟨rfl, rfl, (Bool.or_true _).symm, (List.append_nil _).symm⟩
  case hStore =>
    intro d h
    by_cases hr : 1 ≤ s.fcc ∧ s.fcc < s.cfg.numChannels
    · rw [execRxRcvStore_of_range d hr.1 hr.2] at h
      cases h
      exact ⟨rfl, rfl, (Bool.or_false _).symm, (List.append_nil _).symm⟩
    · rw [execRxRcvStore_out_of_range d hr] at h
      cases h
  case hBrk =>
    intro d h
    cases h
    exact ⟨rfl, rfl, (Bool.or_false _).symm, rfl⟩
  case hFe =>
    intro d
    refine ⟨fun h => ?_, fun h => ?_, fun h => ?_⟩ <;> cases h <;>
      exact ⟨rfl, rfl, (Bool.or_false _).symm, (List.append_nil _).symm⟩
  case hStart =>
    intro h
    cases h
    exact ⟨rfl, rfl, (Bool.or_false _).symm, (List.append_nil _).symm⟩
  all_goals
    intro d h
    cases h
    exact ⟨rfl, rfl, (Bool.or_false _).symm, (List.append_nil _).symm⟩

/-- What an RX step leaves for RX is the same from every state that looks alike to RX. -/
theorem deliver_rx_congr {s s' t : State} (h : s.rxView = s'.rxView) {e : RxEvent}
    (hd : deliver (.rx e) s = .next t) :
    ∃ t', deliver (.rx e) s' = .next t' ∧ t'.rxView = t.rxView := by
  have hsel := selectRx_of_rxView h e
  obtain ⟨hc, hb, hr, ha, hf, hm⟩ := (rxView_eq_iff s s').1 h
  have hn : nextAddr s = nextAddr s' := by unfold nextAddr; rw [hc, ha]
  change exec (selectRx e s) s = _ at hd
  show ∃ t', exec (selectRx e s') s' = .next t' ∧ _
  rw [← hsel]
  revert hd
  refine selectRx_cases (p := fun i => exec i s = .next t →
    ∃ t', exec i s' = .next t' ∧ t'.rxView = t.rxView) e
    ?hBrk ?hIgn ?hStart ?hAbort ?hSkip ?hFirst ?hStore ?hFe
  case hFirst =>
    intro d hd
    obtain ⟨hi, rfl⟩ := captureByte_next hd
    refine ⟨_, execRxFsFirst_of_pos d (hc ▸ hi), ?_⟩
    simp [rxView_eq_iff, setPending, hc, hb, hn, hm]
  case hStore =>
    intro d hd
    by_cases hg : 1 ≤ s.fcc ∧ s.fcc < s.cfg.numChannels
    · rw [execRxRcvStore_of_range d hg.1 hg.2] at hd
      cases hd
      refine ⟨_, execRxRcvStore_of_range d (hf ▸ hg.1) (hf ▸ hc ▸ hg.2), ?_⟩
      simp [rxView_eq_iff, hc, hb, ha, hf, hm]
    · rw [execRxRcvStore_out_of_range d hg] at hd
      cases hd
  case hFe =>
    intro d
    refine ⟨fun hd => ?_, fun hd => ?_, fun hd => ?_⟩ <;> cases hd <;>
      exact ⟨_, rfl, by simp [rxView_eq_iff, hc, hb, ha, hf, hm]⟩
  case hStart =>
    intro hd
    cases hd
    exact ⟨_, rfl, by simp [rxView_eq_iff, hc, hb, ha, hf, hm]⟩
  all_goals
    intro d hd
    cases hd
    exact ⟨_, rfl, by simp [rxView_eq_iff, hc, hb, hr, ha, hf, hm, hn]⟩

/-- A MAP step clears the flag in Clear and leaves it alone elsewhere. -/
theorem deliver_map_flag {s t : State} (h : deliver .map s = .next t) :
    t.updatePending = if s.mapPhase = .clear then false else s.updatePending := by
  cases hp : s.mapPhase with
  | poll =>
    rw [deliver_poll hp] at h
    cases h
    split <;> rfl
  | clear =>
    rw [deliver_clear hp] at h
    cases h
    rfl
  | chan =>
    rcases Nat.lt_trichotomy (s.mapIdx + 1) s.cfg.numChannels with hi | hi | hi
    · rw [deliver_chan_more hp hi] at h
      cases h
      rfl
    · rw [deliver_chan_last hp hi] at h
      cases h
      rfl
    · change exec (selectMap s) s = _ at h
      rw [selectMap_eq, hp] at h
      simp only [execMapChan_of_ge s.updatePending (show s.cfg.numChannels ≤ s.mapIdx by omega)] at h
      cases h
  | reserved =>
    change exec (selectMap s) s = _ at h
    rw [selectMap_eq, hp] at h
    cases h

/-! ## Taking runs apart -/

theorem deliverAll_cons_inv {st : Statement} {sts : List Statement} {s t : State}
    (h : deliverAll (st :: sts) s = .next t) :
    ∃ u, deliver st s = .next u ∧ deliverAll sts u = .next t := by
  unfold deliverAll at h
  cases hd : deliver st s with
  | next u => rw [hd] at h; exact ⟨u, rfl, h⟩
  | fault r => rw [hd] at h; cases h
  | refused r => rw [hd] at h; cases h

theorem deliverAll_append_inv {sts sts' : List Statement} {s t : State}
    (h : deliverAll (sts ++ sts') s = .next t) :
    ∃ u, deliverAll sts s = .next u ∧ deliverAll sts' u = .next t := by
  induction sts generalizing s with
  | nil => exact ⟨s, rfl, h⟩
  | cons st sts ih =>
    obtain ⟨u, hu, h⟩ := deliverAll_cons_inv h
    obtain ⟨v, hv, h⟩ := ih h
    exact ⟨v, (deliverAll_cons hu).trans hv, h⟩

theorem rxEvents_append (sts sts' : List Statement) :
    rxEvents (sts ++ sts') = rxEvents sts ++ rxEvents sts' := by
  induction sts with
  | nil => rfl
  | cons st sts ih =>
    cases st with
    | rx e => exact congrArg (e :: ·) ih
    | map => exact ih

/-- `DMX` is the frame with the break byte 0x00 and the start code 0x00 (R81). -/
theorem dmxStatements_eq (ds : List Byte) :
    dmxStatements ds = Frame.statements ⟨0#8, 0#8, ds⟩ := by
  simp [dmxStatements, frameStatements, Frame.statements, Frame.events, bytes]

end Sys2Proof.Machine
end

