-- ==== Sys2Proof/Laws/PerInstr.lean ====
section
/-! SUPPORT. Families of statements made per instruction, one lemma per constructor. -/

/-- TableRow: the decode word of a well-formed instruction lies in the row of the opcode map (R73,
R76) that carries the instruction's own mnemonic. -/
def Sys2Proof.Laws.TableRow.Statement (i : Sys2Proof.Instr) : Prop :=
  i.wf = true → match Sys2Proof.encode i with
    | none => i = .rxDefault
    | some (.rx rw g) => ∃ r ∈ Sys2Proof.rxTable, r.mnemonic = i.mnemonic ∧ r.applies rw g = true
    | some (.map mw) => ∃ r ∈ Sys2Proof.mapTable, r.mnemonic = i.mnemonic ∧ r.applies mw = true

namespace Sys2Proof.Laws.TableRow

/-- A row that masks the data byte, excludes no word and asks for no guard. -/
theorem applies_plain (m : String) (row : BitVec 3) (d : Byte) (g : Bool) (o : Option Bool)
    (ho : o.all (· == g) = true) :
    RxRow.applies ⟨m, 0x700#11, rxWordOf row 0#8, none, o⟩ (rxWordOf row d) g = true := by
  rw [RxRow.applies, rxWordOf_masked]
  simp [ho]

theorem rxIdleBreak (d : Byte) : Statement (.rxIdleBreak d) := fun _ =>
  ⟨⟨"RX_IDLE_BREAK", 0x700, 0x100, none, none⟩, by decide, rfl, applies_plain _ 0b001#3 d _ _ rfl⟩

theorem rxIdleIgnore (d : Byte) : Statement (.rxIdleIgnore d) := fun _ =>
  ⟨⟨"RX_IDLE_IGNORE", 0x700, 0x000, none, none⟩, by decide, rfl, applies_plain _ 0b000#3 d _ _ rfl⟩

theorem rxBdStart : Statement .rxBdStart := fun _ =>
  ⟨⟨"RX_BD_START", 0x7FF, 0x200, none, none⟩, by decide, rfl, by decide⟩

theorem rxBdAbort (d : Byte) : Statement (.rxBdAbort d) := fun hd => by
  refine ⟨⟨"RX_BD_ABORT", 0x700, 0x200, some 0x200, none⟩, by decide, rfl, ?_⟩
  have hne : rxWordOf 0b010#3 d ≠ 0x200#11 := fun h => by
    have := congrArg rxData h
    rw [rxData_rxWordOf] at this
    subst this
    revert hd
    decide
  show ((rxWordOf 0b010#3 d &&& 0x700#11 == rxWordOf 0b010#3 0#8)
    && (some 0x200#11 != some (rxWordOf 0b010#3 d)) && true) = true
  rw [rxWordOf_masked]
  simpa using hne.symm

theorem rxFsSkip (d : Byte) : Statement (.rxFsSkip d) := fun _ =>
  ⟨⟨"RX_FS_SKIP", 0x700, 0x400, none, some false⟩, by decide, rfl,
    applies_plain _ 0b100#3 d _ _ rfl⟩

theorem rxFsFirst (d : Byte) : Statement (.rxFsFirst d) := fun _ =>
  ⟨⟨"RX_FS_FIRST", 0x700, 0x400, none, some true⟩, by decide, rfl,
    applies_plain _ 0b100#3 d _ _ rfl⟩

theorem rxRcvStore (d : Byte) : Statement (.rxRcvStore d) := fun _ =>
  ⟨⟨"RX_RCV_STORE", 0x700, 0x600, none, none⟩, by decide, rfl, applies_plain _ 0b110#3 d _ _ rfl⟩

theorem rxBdFe (d : Byte) : Statement (.rxBdFe d) := fun _ =>
  ⟨⟨"RX_BD_FE", 0x700, 0x300, none, none⟩, by decide, rfl, applies_plain _ 0b011#3 d _ _ rfl⟩

theorem rxFsFe (d : Byte) : Statement (.rxFsFe d) := fun _ =>
  ⟨⟨"RX_FS_FE", 0x700, 0x500, none, none⟩, by decide, rfl, applies_plain _ 0b101#3 d _ _ rfl⟩

theorem rxRcvFe (d : Byte) : Statement (.rxRcvFe d) := fun _ =>
  ⟨⟨"RX_RCV_FE", 0x700, 0x700, none, none⟩, by decide, rfl, applies_plain _ 0b111#3 d _ _ rfl⟩

theorem rxDefault : Statement .rxDefault := fun _ => rfl

theorem mapPoll (f : Bool) : Statement (.mapPoll f) := fun _ =>
  ⟨⟨"MAP_POLL", 0b110, 0b000⟩, by decide, rfl, by cases f <;> rfl⟩

theorem mapClear (f : Bool) : Statement (.mapClear f) := fun _ =>
  ⟨⟨"MAP_CLEAR", 0b110, 0b010⟩, by decide, rfl, by cases f <;> rfl⟩

theorem mapChan (f : Bool) : Statement (.mapChan f) := fun _ =>
  ⟨⟨"MAP_CHAN", 0b110, 0b100⟩, by decide, rfl, by cases f <;> rfl⟩

theorem mapReserved (f : Bool) : Statement (.mapReserved f) := fun _ =>
  ⟨⟨"MAP_RESERVED", 0b110, 0b110⟩, by decide, rfl, by cases f <;> rfl⟩

end Sys2Proof.Laws.TableRow
end

