-- ==== Sys2Proof/Laws/Place.lean ====
section
/-! SUPPORT. A table word placed by `State.withFetchWord` is the instruction the next step runs. -/

namespace Sys2Proof.Machine

/-- A MAP decode word placed in a state is the one a MAP step forms. -/
theorem mapWord_placeMap (mw : MapWord) (s : State) (ws : List SchedWord) :
    mapWord { placeMap mw s with schedule := ws } = mw := by
  show phaseCode (phaseOfCode (mw.extractLsb' 1 2)) ++ BitVec.ofBool (mw.getLsbD 0) = mw
  revert mw
  decide

/-- fe' of the placed event is the bit the word asks for. -/
theorem effectiveFe_placeRx (w : RxWord) (hit : Bool) (s : State) (ws : List SchedWord) :
    effectiveFe { placeRx w hit s with schedule := ws } (w.getLsbD 8) = w.getLsbD 8 := by
  cases h : w.getLsbD 8
  · exact effectiveFe_false _
  · by_cases hr : rxOfCode (w.extractLsb' 9 2) = .idle
    · exact effectiveFe_idle hr _
    · apply effectiveFe_reset
      simp [placeRx, h, hr]

/-- An RX decode word placed in a state is the one the placed event forms. -/
theorem rxWord_placeRx (w : RxWord) (hit : Bool) (s : State) (ws : List SchedWord) :
    rxWord { placeRx w hit s with schedule := ws } ⟨w.getLsbD 8, rxData w⟩ = w := by
  have hrow : ∀ r : BitVec 3,
      rxCode (rxOfCode (r.extractLsb' 1 2)) ++ BitVec.ofBool (r.getLsbD 0) = r := by decide
  have hstate : (w.extractLsb' 8 3).extractLsb' 1 2 = w.extractLsb' 9 2 := by
    apply BitVec.eq_of_getLsbD_eq
    intro i hi
    have h1 : 1 + i < 3 := by omega
    have h2 : 8 + (1 + i) = 9 + i := by omega
    simp [hi, h1, h2]
  have hfe : (w.extractLsb' 8 3).getLsbD 0 = w.getLsbD 8 := by simp
  have h := hrow (w.extractLsb' 8 3)
  rw [hstate, hfe] at h
  rw [rxWord_eq, effectiveFe_placeRx]
  show rxWordOf (rxCode (rxOfCode (w.extractLsb' 9 2)) ++ BitVec.ofBool (w.getLsbD 8)) _ = w
  rw [h, rxWordOf_fields]

/-- The placed counter gives g_hit the value asked for. -/
theorem gHit_placeRx {w : RxWord} (hit : Bool) {s : State} (ws : List SchedWord)
    (hw : s.cfg.wf = true) (h : rxOfCode (w.extractLsb' 9 2) = .frameStarted) :
    gHit { placeRx w hit s with schedule := ws } = hit := by
  have hw' : (placeRx w hit s).cfg.addrCtrWidth = s.cfg.addrCtrWidth := by
    unfold placeRx
    dsimp
    split <;> rfl
  have h1 := Config.addr_range hw
  have h2 := startAddress_le s
  have h3 := startAddress_pos s
  have hn : nextAddr { placeRx w hit s with schedule := ws } = addrForGuard s hit + 1 := by
    have ha : (placeRx w hit s).addrCtr = addrForGuard s hit := by simp [placeRx, h]
    show ((placeRx w hit s).addrCtr + 1) % 2 ^ (placeRx w hit s).cfg.addrCtrWidth = _
    rw [ha, hw']
    apply Nat.mod_eq_of_lt
    unfold addrForGuard
    split <;> omega
  have hs : startAddress { placeRx w hit s with schedule := ws } = startAddress s := rfl
  rw [gHit, hn, hs, addrForGuard]
  cases hit <;> simp

/-- The guard matters to the FrameStarted rows alone. -/
theorem decodeRx_guard {w : RxWord} (g g' : Bool)
    (h : rxOfCode (w.extractLsb' 9 2) ≠ .frameStarted) : decodeRx w g = decodeRx w g' := by
  have h9 : (w.extractLsb' 9 2).getLsbD 0 = w.getLsbD 9 := by simp
  have h10 : (w.extractLsb' 9 2).getLsbD 1 = w.getLsbD 10 := by simp
  unfold rxOfCode at h
  rw [h9, h10] at h
  unfold decodeRx
  revert h
  cases w.getLsbD 10 <;> cases w.getLsbD 9 <;> cases w.getLsbD 8 <;> intro h <;>
    first | rfl | exact absurd rfl h

/-- `withFetchWord` makes the next step run the table word's instruction, and leaves the rest of the
schedule, the buffer, the base address and the output alone. -/
theorem step_withFetchWord {s : State} (hw : s.cfg.wf = true) {nbits w : Nat} {i : Instr}
    (hi : decodeTableWord nbits w = some i) :
    ∃ t, step (s.withFetchWord nbits w) = exec i t ∧ t.schedule = s.schedule ∧ t.buf = s.buf
      ∧ t.baseAddress = s.baseAddress ∧ t.output = s.output := by
  unfold decodeTableWord decodeTable at hi
  unfold State.withFetchWord placeTableWord
  cases ht : tableWord nbits w with
  | error err => simp [ht, Except.toOption] at hi
  | ok dw =>
    simp only [ht, Except.toOption, Option.some.injEq] at hi
    subst hi
    cases dw with
    | map mw =>
      refine ⟨{ placeMap mw s with schedule := s.schedule }, ?_, rfl, rfl, rfl, rfl⟩
      refine Eq.trans (step_feed_one (s := { placeMap mw s with schedule := s.schedule }) hw .map) ?_
      show exec (decodeMap (mapWord { placeMap mw s with schedule := s.schedule })) _ = _
      rw [mapWord_placeMap]
      rfl
    | rx rw hit =>
      have hw' : (placeRx rw hit s).cfg.wf = true := by
        unfold placeRx
        dsimp
        split <;> exact hw
      refine ⟨{ placeRx rw hit s with schedule := s.schedule }, ?_, rfl, rfl, rfl, rfl⟩
      refine Eq.trans (step_feed_one (s := { placeRx rw hit s with schedule := s.schedule }) hw'
        (.rx ⟨rw.getLsbD 8, rxData rw⟩)) ?_
      show exec (decodeRx (rxWord { placeRx rw hit s with schedule := s.schedule } _)
        (gHit { placeRx rw hit s with schedule := s.schedule })) _ = exec (decodeRx rw hit) _
      rw [rxWord_placeRx]
      by_cases hfs : rxOfCode (rw.extractLsb' 9 2) = .frameStarted
      · rw [gHit_placeRx hit s.schedule hw hfs]
      · rw [decodeRx_guard _ hit hfs]

end Sys2Proof.Machine
end

