-- ==== Sys2Proof/Tests/Slice0.lean ====
section
/-! SUPPORT. Tests of the model on fixed values: well-formedness, the words of every instruction, one step of each, the map table; and for every statement with hypotheses a state and operands that meet them.  Expected results are the vectors of spec/95_test_vectors.md, named by their ids, or words written out from R70, R73, R76 and R80. -/

namespace Sys2Proof.Tests

open Sys2Proof.Machine

/-! ## Small states -/

/-- The configuration of the receiver and mapper vectors: three channels, 23/158, threshold 10. -/
def cfg3 : Config where
  numChannels := 3
  actuatorMin := 23
  actuatorMax := 158
  outWidth := 8
  noiseThreshold := 10
  fePolicy := .resetToIdle
  addrCtrWidth := 16
  initBuffer := [0xA0#8, 0xA1#8, 0xA2#8]

/-- The configuration of V-RX-16 and V-MAP-9. -/
def cfg1 : Config := { cfg3 with numChannels := 1, initBuffer := [0x77#8] }

/-- `cfg3` over other buffer contents. -/
def cfgOf (b0 b1 b2 : Byte) : Config := { cfg3 with initBuffer := [b0, b1, b2] }

/-- A state over a configuration with BaseAddress = 1 (StartAddress = 2). -/
def stateOf (c : Config) (r : RxState) (addr fcc : Nat) (up : Bool) : State :=
  { State.resetWith c 1#9 with rxState := r, addrCtr := addr, fcc := fcc, updatePending := up }

/-- A state over `cfg3`. -/
def rxAt (r : RxState) (addr fcc : Nat) (up : Bool) : State := stateOf cfg3 r addr fcc up

/-- A state of MAP over [128, 200, 5]. -/
def mapAt (p : MapPhase) (idx : Nat) (up : Bool) : State :=
  { stateOf (cfgOf 128#8 200#8 5#8) .idle 0 0 up with mapPhase := p, mapIdx := idx }

/-- The next state of a step, if it answers one. -/
def after (o : Host.Outcome State Fault Refusal) : Option State :=
  match o with
  | .next t => some t
  | .fault _ => none
  | .refused _ => none

/-- The buffer as the vectors write it. -/
def bufOf (s : State) : List Byte := (List.range s.cfg.numChannels).map s.byteAt

/-- What the receiver vectors list of a state. -/
structure RxSeen where
  rxState : RxState
  addrCtr : Nat
  fcc : Nat
  buf : List Byte
  updatePending : Bool
  events : List OutEvent
deriving DecidableEq, Repr

/-- What the mapper vectors list of a state. -/
structure MapSeen where
  mapPhase : MapPhase
  mapIdx : Nat
  updatePending : Bool
  buf : List Byte
  events : List OutEvent
deriving DecidableEq, Repr

/-- One step of the schedule word `w`. -/
def rxStep (w : SchedWord) (s : State) : Option RxSeen :=
  (after (step { s with schedule := [w] })).map fun t =>
    ⟨t.rxState, t.addrCtr, t.fcc, bufOf t, t.updatePending, t.output⟩

/-- One MAP step (word 0x200). -/
def mapStep (s : State) : Option MapSeen :=
  (after (step { s with schedule := [0x200#10] })).map fun t =>
    ⟨t.mapPhase, t.mapIdx, t.updatePending, bufOf t, t.output⟩

/-! ## Well-formedness: each check refuses an ill-formed term -/

theorem test_wf_typical : Config.typical.wf = true ∧ cfg3.wf = true ∧ cfg1.wf = true := by decide

theorem test_wf_numChannels_zero : { cfg3 with numChannels := 0, initBuffer := [] }.wf = false := by
  decide

theorem test_wf_numChannels_high :
    { cfg3 with numChannels := 513, initBuffer := List.replicate 513 0#8 }.wf = false := rfl

theorem test_wf_actuator_order : { cfg3 with actuatorMin := 159 }.wf = false := by decide

theorem test_wf_outWidth : { cfg3 with outWidth := 7 }.wf = false := by decide

theorem test_wf_noiseThreshold : { cfg3 with noiseThreshold := 256 }.wf = false := by decide

theorem test_wf_addrCtrWidth : { cfg3 with addrCtrWidth := 9 }.wf = false := by decide

theorem test_wf_initBuffer : { cfg3 with initBuffer := [0#8, 0#8] }.wf = false := by decide

theorem test_wf_abort_needs_nonzero :
    (Instr.rxBdAbort 0#8).wf = false ∧ (Instr.rxBdAbort 1#8).wf = true := by decide

theorem test_wf_map_word : decodeStatement 0x201#10 = .error .illegalMapStatement
    ∧ decodeStatement 0x300#10 = .error .illegalMapStatement := by decide

/-! ## Words -/

/-- R73, row by row: s s e dddddddd. -/
theorem test_decode_rx_idle :
    decodeRx 0b00110100101#11 false = .rxIdleBreak 0xA5#8
    ∧ decodeRx 0b00001010101#11 false = .rxIdleIgnore 0x55#8 := by decide

theorem test_decode_rx_breakDetected :
    decodeRx 0b01000000000#11 true = .rxBdStart
    ∧ decodeRx 0b01000000001#11 false = .rxBdAbort 0x01#8
    ∧ decodeRx 0b01111111111#11 false = .rxBdFe 0xFF#8 := by decide

theorem test_decode_rx_frameStarted :
    decodeRx 0b10000010001#11 false = .rxFsSkip 0x11#8
    ∧ decodeRx 0b10000010001#11 true = .rxFsFirst 0x11#8
    ∧ decodeRx 0b10100010001#11 true = .rxFsFe 0x11#8 := by decide

theorem test_decode_rx_receiving :
    decodeRx 0b11000110011#11 false = .rxRcvStore 0x33#8
    ∧ decodeRx 0b11100110011#11 false = .rxRcvFe 0x33#8 := by decide

/-- R76: p p f. -/
theorem test_decode_map :
    decodeMap 0b000#3 = .mapPoll false ∧ decodeMap 0b011#3 = .mapClear true
    ∧ decodeMap 0b101#3 = .mapChan true ∧ decodeMap 0b110#3 = .mapReserved false := by decide

/-- R70, R80: the words beside the statements in R80 and program P1. -/
theorem test_decode_statement :
    decodeStatement 0x1FF#10 = .ok (.brk 0xFF#8) ∧ decodeStatement 0x0CC#10 = .ok (.byte 0xCC#8)
    ∧ decodeStatement 0x200#10 = .ok .map := by decide

/-- The table's words, with bit 11 for g_hit, and a word too wide. -/
theorem test_decode_table_word :
    decodeTableWord 16 0x100 = some (.rxIdleBreak 0#8)
    ∧ decodeTableWord 16 0x400 = some (.rxFsSkip 0#8)
    ∧ decodeTableWord 16 0xC00 = some (.rxFsFirst 0#8)
    ∧ decodeTableWord 8 0b010 = some (.mapClear false)
    ∧ decodeTableWord 16 0x1000 = none ∧ decodeTableWord 8 0b1000 = none := by decide

/-- From reset, the placed word is the next to run: 0xC33 captures its byte. -/
theorem test_withFetchWord_rx :
    (after (step (State.reset.withFetchWord 16 0xC33))).map
      (fun t => (t.rxState, t.byteAt 0, t.updatePending)) = some (.receiving, 0x33#8, true) := by
  decide

theorem test_withFetchWord_map :
    (after (step (State.reset.withFetchWord 8 0b100))).map (fun t => (t.mapIdx, t.output)) =
      some (1, [.setPosition 0 23, .chanActive 0 false]) := by decide

/-! ## One step of each instruction -/

theorem test_V_RX_2 : rxStep 0x1FF#10 (rxAt .idle 2 0 false) =
    some ⟨.breakDetected, 0, 0, [0xA0#8, 0xA1#8, 0xA2#8], false, [.breakSeen]⟩ := by decide

theorem test_V_RX_3 : rxStep 0x100#10 (stateOf (cfgOf 1#8 2#8 3#8) .idle 0 0 true) =
    some ⟨.breakDetected, 0, 0, [1#8, 2#8, 3#8], true, [.breakSeen]⟩ := by decide

theorem test_V_RX_5 : rxStep 0x000#10 (rxAt .idle 7 2 false) =
    some ⟨.idle, 7, 2, [0xA0#8, 0xA1#8, 0xA2#8], false, []⟩ := by decide

theorem test_V_RX_6 : rxStep 0x000#10 (rxAt .breakDetected 0 3 false) =
    some ⟨.frameStarted, 0, 3, [0xA0#8, 0xA1#8, 0xA2#8], false, []⟩ := by decide

theorem test_V_RX_8 : rxStep 0x001#10 (rxAt .breakDetected 0 0 false) =
    some ⟨.idle, 0, 0, [0xA0#8, 0xA1#8, 0xA2#8], false, []⟩ := by decide

theorem test_V_RX_9 : rxStep 0x0FF#10 (stateOf (cfgOf 9#8 9#8 9#8) .breakDetected 0 0 true) =
    some ⟨.idle, 0, 0, [9#8, 9#8, 9#8], true, []⟩ := by decide

theorem test_V_RX_10 : rxStep 0x011#10 (rxAt .frameStarted 0 0 false) =
    some ⟨.frameStarted, 1, 0, [0xA0#8, 0xA1#8, 0xA2#8], false, []⟩ := by decide

theorem test_V_RX_11 :
    rxStep 0x000#10 (stateOf { cfg3 with addrCtrWidth := 10 } .frameStarted 1023 0 false) =
      some ⟨.frameStarted, 0, 0, [0xA0#8, 0xA1#8, 0xA2#8], false, []⟩ := by decide

theorem test_V_RX_14 :
    rxStep 0x07E#10 { stateOf { cfg3 with addrCtrWidth := 10 } .frameStarted 511 3 false with
        baseAddress := 511#9 } =
      some ⟨.receiving, 512, 1, [0x7E#8, 0xA1#8, 0xA2#8], true, []⟩ := by decide

theorem test_V_RX_16 : rxStep 0x05A#10 (stateOf cfg1 .frameStarted 1 0 false) =
    some ⟨.idle, 2, 1, [0x5A#8], true, []⟩ := by decide

theorem test_V_RX_18 : rxStep 0x044#10 (rxAt .receiving 2 2 false) =
    some ⟨.idle, 2, 3, [0xA0#8, 0xA1#8, 0x44#8], false, []⟩ := by decide

theorem test_V_RX_19 : rxStep 0x000#10 (rxAt .receiving 2 1 true) =
    some ⟨.receiving, 2, 2, [0xA0#8, 0x00#8, 0xA2#8], true, []⟩ := by decide

theorem test_V_RX_20 : rxStep 0x100#10 (rxAt .breakDetected 0 0 false) =
    some ⟨.idle, 0, 0, [0xA0#8, 0xA1#8, 0xA2#8], false, []⟩ := by decide

theorem test_V_RX_21 : rxStep 0x100#10 (rxAt .frameStarted 1 0 false) =
    some ⟨.idle, 1, 0, [0xA0#8, 0xA1#8, 0xA2#8], false, []⟩ := by decide

theorem test_V_RX_22 : rxStep 0x100#10 (stateOf (cfgOf 0x22#8 0xA1#8 0xA2#8) .receiving 2 1 true) =
    some ⟨.idle, 2, 1, [0x22#8, 0xA1#8, 0xA2#8], true, []⟩ := by decide

theorem test_V_RX_24 : (after (exec .rxDefault (rxAt .receiving 2 1 true))).map
    (fun t => (t.rxState, t.fcc, t.updatePending)) = some (.idle, 1, true) := by decide

/-- V-RX-X4 and V-RX-X1: under IgnoreFlag a framing error outside Idle is a normal byte. -/
theorem test_V_RX_X4 :
    rxStep 0x100#10 (stateOf { cfg3 with fePolicy := .ignoreFlag } .breakDetected 0 0 false) =
      some ⟨.frameStarted, 0, 0, [0xA0#8, 0xA1#8, 0xA2#8], false, []⟩
    ∧ rxStep 0x100#10 (stateOf { cfg3 with fePolicy := .ignoreFlag } .receiving 2 1 true) =
      some ⟨.receiving, 2, 2, [0xA0#8, 0x00#8, 0xA2#8], true, []⟩ := by decide

theorem test_V_MAP_1 : mapStep (mapAt .poll 0 false) =
    some ⟨.poll, 0, false, [128#8, 200#8, 5#8], []⟩ := by decide

theorem test_V_MAP_2 : mapStep (mapAt .poll 0 true) =
    some ⟨.clear, 0, true, [128#8, 200#8, 5#8], []⟩ := by decide

theorem test_V_MAP_3 : mapStep (mapAt .clear 0 true) =
    some ⟨.chan, 0, false, [128#8, 200#8, 5#8], []⟩ := by decide

theorem test_V_MAP_5 : mapStep (mapAt .chan 0 true) =
    some ⟨.chan, 1, true, [128#8, 200#8, 5#8], [.setPosition 0 90, .chanActive 0 true]⟩ := by decide

theorem test_V_MAP_7 : mapStep (mapAt .chan 2 false) =
    some ⟨.poll, 0, false, [128#8, 200#8, 5#8], [.setPosition 2 25, .chanActive 2 false]⟩ := by decide

theorem test_V_MAP_10 : step { mapAt .reserved 0 false with schedule := [0x200#10] } =
    .refused .reservedMapPhase := rfl

/-- Rows of table V-MAP-F, for 23/158 and for 0/1000. -/
theorem test_V_MAP_F :
    [0#8, 1#8, 5#8, 127#8, 128#8, 200#8, 254#8, 255#8].map (mapValue cfg3) =
      [23, 23, 25, 90, 90, 128, 157, 158]
    ∧ [1#8, 64#8, 80#8, 254#8].map
        (mapValue { cfg3 with actuatorMin := 0, actuatorMax := 1000, outWidth := 10 }) =
      [3, 250, 313, 996] := by decide

/-- Rows of table V-ACT. -/
theorem test_V_ACT :
    [0#8, 10#8, 11#8, 255#8].map (isActive cfg3) = [false, false, true, true]
    ∧ isActive { cfg3 with noiseThreshold := 255 } 255#8 = false := by decide

/-- The reset state of R190 under the typical configuration. -/
theorem test_reset : (State.reset.rxState, State.reset.baseAddress, State.reset.addrCtr,
    State.reset.fcc, State.reset.updatePending, State.reset.mapPhase, State.reset.mapIdx) =
      (.idle, 0#9, 0, 0, false, .poll, 0) := by decide

/-! ## Witnesses: states and operands that meet the hypotheses of each statement -/

/-- What is left of the invariant for a state that emitted nothing but BreakSeen is decidable. -/
theorem inv_of_break {s : State}
    (h : (s.cfg.wf = true ∧ s.addrCtr < 2 ^ s.cfg.addrCtrWidth ∧ s.fcc ≤ s.cfg.numChannels
      ∧ (s.rxState = .receiving → 1 ≤ s.fcc ∧ s.fcc ≤ s.cfg.numChannels - 1))
      ∧ (s.rxState = .breakDetected → s.addrCtr = 0)
      ∧ (s.rxState = .frameStarted → s.addrCtr < (startAddress s).toNat)
      ∧ s.mapPhase ≠ .reserved ∧ s.mapIdx < s.cfg.numChannels
      ∧ (s.mapPhase = .clear → s.updatePending = true) ∧ Memory.wf s.cfg s.buf = true)
    (ho : s.output = [.breakSeen]) : s.Inv where
  cfg_legal := h.1.1
  addrCtr_fits := h.1.2.1
  fcc_le := h.1.2.2.1
  receiving := h.1.2.2.2
  break_seen _ := by simp [ho]
  addrCtr_zero := h.2.1
  before_window := h.2.2.1
  phase_legal := h.2.2.2.1
  mapIdx_lt := h.2.2.2.2.1
  clear_pending := h.2.2.2.2.2.1
  buf_canonical := h.2.2.2.2.2.2
  output_inRange e he := by
    rw [ho, List.mem_singleton] at he
    subst he
    trivial

/-- A state over `cfg3` that has seen a break: RX's elements and MAP's. -/
def sys (r : RxState) (addr fcc : Nat) (up : Bool) (p : MapPhase) (idx : Nat) : State :=
  { rxAt r addr fcc up with mapPhase := p, mapIdx := idx, output := [.breakSeen] }

/-- Steps from a reachable state stay in reachable states. -/
theorem reachable_run {k : Nat} {s t : State} (hs : Reachable s) (h : run k s = .next t) :
    Reachable t := by
  induction k generalizing s with
  | zero => cases h; exact hs
  | succ k ih =>
    rw [run] at h
    cases hstep : step s with
    | next u => rw [hstep] at h; exact ih (.step hs hstep) h
    | fault r => rw [hstep] at h; cases h
    | refused r => rw [hstep] at h; cases h

theorem test_witness_ResetValues : cfg3.wf = true ∧ 0 < cfg3.numChannels ∧ 2 < cfg3.numChannels := by
  decide

theorem test_witness_ScheduleWordsAndStatementsCorrespond :
    decodeStatement 0x1FF#10 = .ok (.brk 0xFF#8)
    ∧ decodeStatement 0x201#10 = .error .illegalMapStatement := by decide

theorem test_witness_DecodeOfEncodeIsTheInstruction :
    (Instr.rxBdAbort 1#8).wf = true ∧ encode (.rxBdAbort 1#8) = some (.rx 0x201#11 false) := by decide

theorem test_witness_RxOpcodeMapSelectsExactlyOneRow :
    (stateOf { cfg3 with fePolicy := .ignoreFlag } .receiving 2 1 true).cfg.fePolicy = .ignoreFlag :=
  rfl

theorem test_witness_MapOpcodeMapSelectsExactlyOneRow : (mapAt .poll 0 true).mapPhase = .poll := rfl

theorem test_witness_DecodeWordFields :
    (rxAt .idle 0 0 false).cfg.fePolicy = .resetToIdle
    ∧ (stateOf { cfg3 with fePolicy := .ignoreFlag } .idle 0 0 false).cfg.fePolicy = .ignoreFlag :=
  ⟨rfl, rfl⟩

/-- The highest StartAddress at the least counter width. -/
theorem test_witness_StartAddressNeverWraps :
    { State.resetWith { cfg3 with addrCtrWidth := 10 } 511#9 with rxState := .idle }.cfg.wf = true :=
  by decide

/-- The least and the greatest NumChannels of R9, with the widths R25 and R28 give. -/
theorem test_witness_CounterWidthsAreLeast :
    1 < 2 ^ 1 ∧ (1 : Nat) ≤ 2 ^ 1 ∧ 512 < 2 ^ 10 ∧ (512 : Nat) ≤ 2 ^ 9
    ∧ fccWidth cfg1 = 1 ∧ idxWidth cfg1 = 1
    ∧ fccWidth { cfg3 with numChannels := 512 } = 10
    ∧ idxWidth { cfg3 with numChannels := 512 } = 9 := by decide

theorem test_witness_StepRunsTheDecodedInstruction :
    (rxAt .receiving 2 1 true).cfg.wf = true ∧ (rxAt .receiving 2 1 true).schedule = [] := by decide

theorem test_witness_IllegalInputsAreRefused :
    (stateOf { cfg3 with addrCtrWidth := 9 } .idle 0 0 false).cfg.wf = false
    ∧ (rxAt .idle 0 0 false).cfg.wf = true
    ∧ { rxAt .idle 0 0 false with schedule := [0x201#10] }.schedule = 0x201#10 :: []
    ∧ BitVec.getLsbD 0x201#10 9 = true ∧ BitVec.extractLsb' 0 9 0x201#10 ≠ 0#9 := by decide

theorem test_witness_IdleBreakStartsABreakCycle : (rxAt .idle 7 0 false).rxState = .idle := rfl

theorem test_witness_IdleByteIsIgnored : (rxAt .idle 0 3 true).rxState = .idle := rfl

theorem test_witness_ZeroStartCodeStartsTheFrame :
    (sys .breakDetected 0 0 false .poll 0).Inv
    ∧ (sys .breakDetected 0 0 false .poll 0).rxState = .breakDetected :=
  ⟨inv_of_break (by decide) rfl, rfl⟩

theorem test_witness_NonZeroStartCodeAbortsTheFrame :
    (1#8 : Byte) ≠ 0#8 ∧ (sys .breakDetected 0 0 false .poll 0).Inv
    ∧ (sys .breakDetected 0 0 false .poll 0).rxState = .breakDetected :=
  ⟨by decide, inv_of_break (by decide) rfl, rfl⟩

theorem test_witness_SlotBeforeTheWindowIsSkipped :
    (rxAt .frameStarted 0 0 false).rxState = .frameStarted
    ∧ gHit (rxAt .frameStarted 0 0 false) = false := by decide

/-- At NumChannels = 1 and above. -/
theorem test_witness_FirstWindowSlotIsCaptured :
    (rxAt .frameStarted 1 0 false).rxState = .frameStarted
    ∧ gHit (rxAt .frameStarted 1 0 false) = true ∧ 1 ≤ (rxAt .frameStarted 1 0 false).cfg.numChannels
    ∧ 1 ≤ (stateOf cfg1 .frameStarted 1 0 false).cfg.numChannels := by decide

/-- fcc at both ends of its range, and just outside them. -/
theorem test_witness_WindowByteIsStored :
    (rxAt .receiving 2 1 true).rxState = .receiving
    ∧ 1 ≤ (rxAt .receiving 2 1 true).fcc ∧ (rxAt .receiving 2 1 true).fcc + 1 ≤ cfg3.numChannels
    ∧ 1 ≤ (rxAt .receiving 2 2 true).fcc ∧ (rxAt .receiving 2 2 true).fcc + 1 ≤ cfg3.numChannels
    ∧ ¬ (1 ≤ (rxAt .receiving 2 0 true).fcc
        ∧ (rxAt .receiving 2 0 true).fcc + 1 ≤ cfg3.numChannels)
    ∧ ¬ (1 ≤ (rxAt .receiving 2 3 true).fcc
        ∧ (rxAt .receiving 2 3 true).fcc + 1 ≤ cfg3.numChannels) := by decide

theorem test_witness_FramingErrorOutsideIdleResetsToIdle :
    cfg3.fePolicy = .resetToIdle
    ∧ (rxAt .breakDetected 0 0 false).rxState = .breakDetected
    ∧ (rxAt .frameStarted 1 0 false).rxState = .frameStarted
    ∧ (rxAt .receiving 2 1 true).rxState = .receiving := ⟨rfl, rfl, rfl, rfl⟩

theorem test_witness_PollTestsTheFlag :
    (mapAt .poll 0 false).mapPhase = .poll ∧ (mapAt .poll 0 false).updatePending = false
    ∧ (mapAt .poll 0 true).mapPhase = .poll ∧ (mapAt .poll 0 true).updatePending = true :=
  ⟨rfl, rfl, rfl, rfl⟩

theorem test_witness_ClearConsumesTheFlag : (mapAt .clear 0 true).mapPhase = .clear := rfl

/-- map_idx below, at and past the last channel. -/
theorem test_witness_ChannelStepDrivesOneChannel :
    (mapAt .chan 0 false).mapPhase = .chan
    ∧ (mapAt .chan 1 false).mapIdx + 1 < (mapAt .chan 1 false).cfg.numChannels
    ∧ (mapAt .chan 2 false).mapIdx + 1 = (mapAt .chan 2 false).cfg.numChannels
    ∧ (mapAt .chan 3 false).cfg.numChannels ≤ (mapAt .chan 3 false).mapIdx := by decide

theorem test_witness_ReservedPhaseIsRefused : (mapAt .reserved 0 false).mapPhase = .reserved := rfl

theorem test_witness_LinearMapIsFloorDivision : cfg3.actuatorMin ≤ cfg3.actuatorMax := by decide

/-- Also with equal ends, and two bytes in order. -/
theorem test_witness_LinearMapLaws : cfg3.actuatorMin ≤ cfg3.actuatorMax
    ∧ (0#8 : Byte).toNat ≤ (255#8 : Byte).toNat
    ∧ { cfg3 with actuatorMin := 158 }.actuatorMin = { cfg3 with actuatorMin := 158 }.actuatorMax := by
  decide

theorem test_witness_ActiveMeansAboveTheThreshold :
    { cfg3 with noiseThreshold := 255 }.noiseThreshold = 255 := rfl

theorem test_witness_BufferReadsTheLatestWrite :
    0 < (rxAt .idle 0 0 false).cfg.numChannels ∧ 2 < (rxAt .idle 0 0 false).cfg.numChannels
    ∧ (rxAt .idle 0 0 false).cfg.numChannels ≤ 3 ∧ (2 : Nat) ≠ 0 := by decide

theorem test_witness_CanonicalMemoryIsDeterminedByItsReads :
    Memory.wf cfg3 [(0, 0x11#8), (2, 0x33#8)] = true ∧ 2 < cfg3.numChannels
    ∧ Memory.wf cfg3 (Memory.write cfg3 (Memory.write cfg3 [] 2 0x33#8) 0 0x11#8) = true
    ∧ ∀ a, Memory.read cfg3 [(0, 0x11#8), (2, 0x33#8)] a =
        Memory.read cfg3 (Memory.write cfg3 (Memory.write cfg3 [] 2 0x33#8) 0 0x11#8) a :=
  ⟨by decide, by decide, by decide, fun _ => rfl⟩

/-- The last byte of a window, in Chan. -/
theorem test_witness_StepKeepsTheInvariant :
    ((sys .receiving 2 2 true .chan 1).feed [.byte 0x44#8]).Inv
    ∧ ∃ t, step ((sys .receiving 2 2 true .chan 1).feed [.byte 0x44#8]) = .next t :=
  ⟨inv_of_break (by decide) rfl, _, rfl⟩

theorem test_witness_ResetMeetsTheInvariant : cfg1.wf = true := by decide

theorem legal_one : legalSchedule [0x05A#10] := by
  intro w hw
  rw [List.mem_singleton] at hw
  exact ⟨.byte 0x5A#8, by rw [hw]; rfl⟩

/-- A reachable state in Receiving, with a legal schedule. -/
theorem test_witness_NoStepOfAReachableStateFails :
    ∃ s, Reachable s ∧ legalSchedule s.schedule ∧ s.schedule = [0x05A#10] ∧ s.rxState = .receiving :=
  ⟨_, reachable_run (k := 4)
      (.start cfg3 1#9 [0x100#10, 0x000#10, 0x011#10, 0x080#10, 0x05A#10] (by decide)) rfl,
    legal_one, rfl, rfl⟩

/-- The slot before the window's first, then the slot after it: each clause of R113. -/
theorem test_witness_ReceiverInvariantsOfReachableStates :
    (∃ s, Reachable s ∧ s.rxState = .frameStarted ∧ selectRx ⟨false, 0x80#8⟩ s = .rxFsFirst 0x80#8)
    ∧ ∃ s, Reachable s ∧ s.rxState = .receiving ∧ selectRx ⟨false, 0x05#8⟩ s = .rxRcvStore 0x05#8 :=
  ⟨⟨_, reachable_run (k := 3) (.start cfg3 1#9 [0x100#10, 0x000#10, 0x011#10] (by decide)) rfl,
      rfl, rfl⟩,
    ⟨_, reachable_run (k := 4) (.start cfg3 1#9 [0x100#10, 0x000#10, 0x011#10, 0x080#10] (by decide))
      rfl, rfl, rfl⟩⟩

/-- The six steps of a frame and a cycle with one channel and StartAddress = 1. -/
theorem test_witness_EmittedValuesAreInRange :
    ∃ s, Reachable s ∧ OutEvent.setPosition 0 70 ∈ s.output
      ∧ OutEvent.chanActive 0 true ∈ s.output :=
  ⟨_, reachable_run (k := 6)
      (.start cfg1 0#9 [0x100#10, 0x000#10, 0x05A#10, 0x200#10, 0x200#10, 0x200#10] (by decide)) rfl,
    by decide, by decide⟩

theorem test_witness_StepsLeaveTheConfigurationAlone :
    ∃ t, step { rxAt .idle 0 0 false with schedule := [0x100#10, 0x000#10] } = .next t := ⟨_, rfl⟩

/-- Two states alike for RX, with MAP in different phases. -/
theorem test_witness_RxStepTouchesOnlyItsOwnState :
    (sys .frameStarted 1 0 false .poll 0).cfg.wf = true
    ∧ (∃ t, step ((sys .frameStarted 1 0 false .poll 0).feed [.byte 0x22#8]) = .next t)
    ∧ (sys .frameStarted 1 0 true .chan 2).rxView = (sys .frameStarted 1 0 false .poll 0).rxView :=
  ⟨by decide, ⟨_, rfl⟩, rfl⟩

/-- Two states alike for MAP, with RX in different states. -/
theorem test_witness_MapStepTouchesOnlyItsOwnState :
    (sys .idle 0 0 true .chan 2).cfg.wf = true
    ∧ (∃ t, step ((sys .idle 0 0 true .chan 2).feed [.map]) = .next t)
    ∧ (sys .receiving 2 1 true .chan 2).mapView = (sys .idle 0 0 true .chan 2).mapView :=
  ⟨by decide, ⟨_, rfl⟩, rfl⟩

theorem test_witness_FlagIsSetByCaptureAndClearedByMap :
    (∃ t, exec (.rxFsFirst 0x22#8) (rxAt .frameStarted 1 0 false) = .next t
      ∧ (rxAt .frameStarted 1 0 false).updatePending = false ∧ t.updatePending = true)
    ∧ ∃ t, exec (.mapClear true) (mapAt .clear 0 true) = .next t
      ∧ (mapAt .clear 0 true).updatePending = true ∧ t.updatePending = false :=
  ⟨⟨_, rfl, rfl, rfl⟩, ⟨_, rfl, rfl, rfl⟩⟩

theorem test_witness_BufferIsWrittenOnlyByCapture :
    (∃ t, exec (.rxFsFirst 0x22#8) (rxAt .frameStarted 1 0 false) = .next t
      ∧ t.byteAt 0 ≠ (rxAt .frameStarted 1 0 false).byteAt 0)
    ∧ ∃ t, exec (.rxRcvStore 0x44#8) (rxAt .receiving 2 2 true) = .next t
      ∧ t.byteAt 2 ≠ (rxAt .receiving 2 2 true).byteAt 2 :=
  ⟨⟨_, rfl, by decide⟩, ⟨_, rfl, by decide⟩⟩

theorem test_witness_OutputGrowsOnlyByBreakAndChannel :
    (∃ t, exec (.rxIdleBreak 0#8) (rxAt .idle 0 0 false) = .next t)
    ∧ (∃ t, exec (.mapChan false) (mapAt .chan 2 false) = .next t)
    ∧ ∃ t, exec .rxBdStart (rxAt .breakDetected 0 0 false) = .next t := ⟨⟨_, rfl⟩, ⟨_, rfl⟩, ⟨_, rfl⟩⟩

/-- The same bytes with MAP steps in different places, from different phases of MAP. -/
theorem test_witness_MapStepsDoNotInfluenceRx :
    (sys .receiving 2 1 true .poll 0).Inv ∧ (sys .receiving 2 1 false .chan 2).Inv
    ∧ (sys .receiving 2 1 true .poll 0).rxView = (sys .receiving 2 1 false .chan 2).rxView
    ∧ rxEvents [.map, .byte 1#8, .byte 2#8] = rxEvents [.byte 1#8, .map, .map, .byte 2#8] :=
  ⟨inv_of_break (by decide) rfl, inv_of_break (by decide) rfl, rfl, rfl⟩

/-- With nothing left in the schedule, and with MAP words left. -/
theorem test_witness_QuiescentStateStaysAsItIs :
    (rxAt .idle 2 3 false).cfg.wf = true ∧ (rxAt .idle 2 3 false).quiescent
    ∧ { rxAt .idle 2 3 false with schedule := [0x200#10, 0x200#10] }.quiescent :=
  ⟨by decide, ⟨nofun, rfl, rfl⟩, by
    refine ⟨fun w hw => ?_, rfl, rfl⟩
    simp only [List.mem_cons, List.not_mem_nil, or_false, or_self] at hw
    subst hw
    rfl⟩

/-- MAP steps without end, in a state whose flag is 0. -/
theorem test_witness_EveryInterleavingHasOneInfiniteRun :
    (sys .idle 2 3 false .poll 0).Inv
    ∧ InfiniteRun (sys .idle 2 3 false .poll 0) (fun _ => .map) (fun _ => sys .idle 2 3 false .poll 0) :=
  ⟨inv_of_break (by decide) rfl, rfl, fun _ => rfl⟩

/-- A first capture, then MAP steps without end: the flag is 1 after step 0, for the first channel and
the last. -/
theorem test_witness_FairMapDrivesEveryChannel :
    let s := sys .frameStarted 1 0 false .poll 0
    let sts : Nat → Statement := fun n => if n = 0 then .byte 0x22#8 else .map
    s.Inv ∧ mapFair sts
    ∧ (∃ t, step (s.feed [sts 0]) = .next t ∧ t.updatePending = true)
    ∧ 0 < s.cfg.numChannels ∧ 2 < s.cfg.numChannels :=
  ⟨inv_of_break (by decide) rfl, fun n => ⟨n + 1, by omega, if_neg (by omega)⟩,
    ⟨_, rfl, rfl⟩, by decide, by decide⟩

/-- W2 with a MAP step before slot StartAddress and one, a MAP_POLL, after it. -/
theorem test_witness_FrameCaptureLaw :
    let s := sys .idle 0 0 false .poll 0
    let sts : List Statement :=
      [.brk 0#8, .byte 0#8, .byte 0x11#8, .map, .byte 0x80#8, .map, .byte 0xC8#8, .byte 0x05#8]
    s.Inv ∧ s.cfg.fePolicy = .resetToIdle ∧ s.rxState = .idle
      ∧ coversWindow s [0x11#8, 0x80#8, 0xC8#8, 0x05#8]
      ∧ rxEvents sts = ⟨true, 0#8⟩ :: ⟨false, 0#8⟩ :: bytes [0x11#8, 0x80#8, 0xC8#8, 0x05#8]
      ∧ sts = [.brk 0#8, .byte 0#8, .byte 0x11#8, .map] ++ .byte 0x80#8
          :: [.map, .byte 0xC8#8, .byte 0x05#8]
      ∧ (rxEvents [.brk 0#8, .byte 0#8, .byte 0x11#8, .map]).length = (startAddress s).toNat + 1
      ∧ ((history sts.length (s.feed sts)).drop 5).map (·.1) =
          [.mapPoll true, .rxRcvStore 0xC8#8, .rxRcvStore 0x05#8] :=
  ⟨inv_of_break (by decide) rfl, rfl, rfl, by unfold coversWindow; decide, rfl, rfl, by decide,
    by decide⟩

theorem test_witness_IdleIgnoresEveryByte :
    (sys .idle 2 3 false .poll 0).Inv ∧ (sys .idle 2 3 false .poll 0).rxState = .idle
    ∧ (sys .idle 2 3 false .poll 0).updatePending = false
    ∧ rxEvents [.byte 0#8, .map, .byte 7#8] = bytes [0#8, 7#8]
    ∧ (history 3 ((sys .idle 2 3 false .poll 0).feed [.byte 0#8, .map, .byte 7#8])).map (·.1) =
        [.rxIdleIgnore 0#8, .mapPoll false, .rxIdleIgnore 7#8] :=
  ⟨inv_of_break (by decide) rfl, rfl, rfl, rfl, by decide⟩

/-- W3. -/
theorem test_witness_DiscardLaw :
    (sys .idle 2 3 false .poll 0).Inv ∧ (sys .idle 2 3 false .poll 0).rxState = .idle
    ∧ (sys .idle 2 3 false .poll 0).updatePending = false ∧ (0xCC#8 : Byte) ≠ 0#8
    ∧ rxEvents (frameStatements 0xCC#8 [1#8, 2#8]) =
        ⟨true, 0#8⟩ :: ⟨false, 0xCC#8⟩ :: bytes [1#8, 2#8]
    ∧ (history 4 ((sys .idle 2 3 false .poll 0).feed (frameStatements 0xCC#8 [1#8, 2#8]))).map (·.1) =
        [.rxIdleBreak 0#8, .rxBdAbort 0xCC#8, .rxIdleIgnore 1#8, .rxIdleIgnore 2#8] :=
  ⟨inv_of_break (by decide) rfl, rfl, rfl, by decide, rfl, by decide⟩

/-- Steps 5 to 11 of P3: the break of a lost frame, its bytes, and the next break. -/
theorem test_witness_AbortLosesTheNextFrameThenResynchronises :
    (sys .receiving 2 1 true .poll 0).Inv
    ∧ (sys .receiving 2 1 true .poll 0).cfg.fePolicy = .resetToIdle
    ∧ (sys .receiving 2 1 true .poll 0).rxState ≠ .idle
    ∧ rxEvents [.brk 0#8, .byte 0#8, .map, .byte 9#8, .brk 0#8] =
        ⟨true, 0#8⟩ :: bytes [0#8, 9#8] ++ [⟨true, 0#8⟩] :=
  ⟨inv_of_break (by decide) rfl, rfl, by decide, rfl⟩

/-- Two of three window bytes with a MAP step before the first, and one. -/
theorem test_witness_AbortedCaptureLeavesAStaleTail :
    (sys .frameStarted 1 0 false .poll 0).Inv
    ∧ (sys .frameStarted 1 0 false .poll 0).cfg.fePolicy = .resetToIdle
    ∧ (sys .frameStarted 1 0 false .poll 0).rxState = .frameStarted
    ∧ gHit (sys .frameStarted 1 0 false .poll 0) = true
    ∧ 1 ≤ [2#8].length ∧ [2#8, 3#8].length < cfg3.numChannels
    ∧ rxEvents [.map, .byte 2#8, .byte 3#8, .brk 0#8] = bytes [2#8, 3#8] ++ [⟨true, 0#8⟩]
    ∧ rxEvents [.map] = [] :=
  ⟨inv_of_break (by decide) rfl, rfl, rfl, by decide, by decide, by decide, rfl, rfl⟩

theorem test_witness_NothingHappensBeforeTheFirstBreak :
    cfg3.wf = true ∧ rxEvents [.byte 0#8, .map, .byte 0x55#8] = bytes [0#8, 0x55#8] :=
  ⟨by decide, rfl⟩

theorem test_witness_CycleLaw :
    (mapAt .poll 0 true).cfg.wf = true ∧ (mapAt .poll 0 true).mapPhase = .poll
    ∧ (mapAt .poll 0 true).updatePending = true ∧ (mapAt .clear 0 true).mapPhase = .clear := by decide

theorem test_witness_CycleStatementsReturnToPoll :
    (mapAt .poll 0 true).cfg.wf = true ∧ (mapAt .poll 0 true).mapPhase = .poll
    ∧ (mapAt .poll 0 false).mapPhase = .poll := by decide

/-- Step 14 of P4, with MAP about to read the same channel. -/
theorem test_witness_TornReadSeesTheNewByte :
    (sys .receiving 2 1 true .chan 1).Inv ∧ (sys .receiving 2 1 true .chan 1).rxState = .receiving
    ∧ (sys .receiving 2 1 true .chan 1).mapPhase = .chan
    ∧ (sys .receiving 2 1 true .chan 1).mapIdx = (sys .receiving 2 1 true .chan 1).fcc :=
  ⟨inv_of_break (by decide) rfl, rfl, rfl, rfl⟩

/-- Variant P4a: the next frame is about to reach StartAddress while the flag is still 1. -/
theorem test_witness_LostUpdateMergesTwoSets :
    (sys .frameStarted 1 3 true .poll 0).Inv ∧ (sys .frameStarted 1 3 true .poll 0).rxState = .frameStarted
    ∧ gHit (sys .frameStarted 1 3 true .poll 0) = true
    ∧ (sys .frameStarted 1 3 true .poll 0).mapPhase = .poll
    ∧ (sys .frameStarted 1 3 true .poll 0).updatePending = true
    ∧ [0x50#8, 0x60#8].length + 1 = cfg3.numChannels :=
  ⟨inv_of_break (by decide) rfl, rfl, by decide, rfl, rfl, rfl⟩

/-- In the middle of a cycle, one index past the byte, and after the cycle. -/
theorem test_witness_ByteStoredBehindMapIsNotDriven :
    (sys .receiving 2 1 false .chan 2).Inv ∧ (sys .receiving 2 1 false .chan 2).rxState = .receiving
    ∧ (sys .receiving 2 1 false .chan 2).updatePending = false
    ∧ (sys .receiving 2 1 false .chan 2).mapPhase = .chan
    ∧ (sys .receiving 2 1 false .chan 2).fcc < (sys .receiving 2 1 false .chan 2).mapIdx
    ∧ (sys .receiving 2 2 false .poll 0).Inv ∧ (sys .receiving 2 2 false .poll 0).mapPhase = .poll :=
  ⟨inv_of_break (by decide) rfl, rfl, rfl, rfl, by decide, inv_of_break (by decide) rfl, rfl⟩

/-- A frame exactly as long as the window needs, and one slot longer. -/
def frameA : Frame := ⟨0#8, 0#8, [0x11#8, 0x80#8, 0xC8#8, 0x05#8]⟩
def frameB : Frame := ⟨0x3C#8, 0#8, [0#8, 1#8, 2#8, 3#8, 4#8]⟩

theorem test_witness_FramesAreCapturedAndDriven :
    let s := sys .idle 0 0 false .poll 0
    s.Inv ∧ s.cfg.fePolicy = .resetToIdle ∧ s.rxState = .idle ∧ s.mapPhase = .poll
      ∧ s.updatePending = false ∧ nullStartCode [frameA, frameB]
      ∧ frameCoversWindow s [frameA, frameB] :=
  ⟨inv_of_break (by decide) rfl, rfl, rfl, rfl, rfl, by unfold nullStartCode; decide,
    by unfold frameCoversWindow coversWindow; decide⟩

/-- A byte before the first break, a MAP_POLL in the middle of the capture of frame A, and its MAP_CLEAR
and first MAP_CHAN after the last window byte. -/
def isolatedRun : List Statement :=
  [.byte 7#8, .brk 0#8, .byte 0#8, .byte 0x11#8, .byte 0x80#8, .map, .byte 0xC8#8, .byte 0x05#8,
    .map, .map]

/-- The four premises together, each over the whole run, and the clause on one frame's end. -/
theorem test_witness_FramePremisesGiveWholeFrames :
    let s := sys .idle 0 0 false .poll 0
    s.Inv ∧ s.cfg.fePolicy = .resetToIdle ∧ s.rxState = .idle ∧ s.mapPhase = .poll
      ∧ s.updatePending = false ∧ oneFePerBreak [frameA] (rxEvents isolatedRun)
      ∧ nullStartCode [frameA] ∧ frameCoversWindow s [frameA]
      ∧ captureIsolated (history isolatedRun.length (s.feed isolatedRun))
      ∧ isolatedRun = isolatedRun.take 8 ++ isolatedRun.drop 8
      ∧ ([] ++ [frameA]).IsPrefix [frameA]
      ∧ oneFePerBreak ([] ++ [frameA]) (rxEvents (isolatedRun.take 8)) :=
  ⟨inv_of_break (by decide) rfl, rfl, rfl, rfl, rfl, ⟨[7#8], rfl⟩, by unfold nullStartCode; decide,
    by unfold frameCoversWindow coversWindow; decide, by
      intro p hp
      have hall : (history isolatedRun.length ((sys .idle 0 0 false .poll 0).feed isolatedRun)).all
          (fun p => (p.1 != .mapClear true || p.2.rxState != .receiving)
            && (p.1 != .mapClear false) && (!ofNextFrame p.1 || p.2.mapPhase == .poll)) = true := by
        decide
      have := List.all_eq_true.1 hall p hp
      refine ⟨fun f hf => ?_, fun h => ?_⟩
      · cases f <;> simp_all
      · simp_all,
    rfl, List.prefix_rfl, ⟨[7#8], rfl⟩⟩

end Sys2Proof.Tests
end

section
/-! The opcode maps of R73 and R76: exactly one row applies to each decode word, the decoded one. -/

namespace Sys2Proof

/-! ## Rows on a word given as row bits and data byte -/

theorem rxWordOf_inj {row p : BitVec 3} {d b : Byte} :
    rxWordOf row d = rxWordOf p b ↔ row = p ∧ d = b := by
  constructor
  · intro h
    have hd : d = b := by simpa using congrArg rxData h
    refine ⟨BitVec.eq_of_getLsbD_eq fun i _ => ?_, hd⟩
    rw [← rowBit_rxWordOf row d i, h, rowBit_rxWordOf]
  · rintro ⟨rfl, rfl⟩
    rfl

theorem rxWordOf_and_rowMask (row : BitVec 3) (d : Byte) :
    rxWordOf row d &&& 0x700 = rxWordOf row 0#8 :=
  beq_iff_eq.1 ((rxWordOf_masked row row d).trans (beq_self_eq_true row))

/-- A row with the mask 0x700 and no excluded word looks at the row bits and the guard only. -/
theorem applies_rowMask (m : String) (q : RxWord) (o : Option Bool) (row : BitVec 3) (d : Byte)
    (g : Bool) : RxRow.applies ⟨m, 0x700, q, none, o⟩ (rxWordOf row d) g =
      (rxWordOf row 0#8 == q && o.all (· == g)) := by
  have hexcl : ((none : Option RxWord) != some (rxWordOf row d)) = true := rfl
  rw [RxRow.applies, rxWordOf_and_rowMask, hexcl, Bool.and_true]

theorem applies_rxBdStart (row : BitVec 3) (d : Byte) (g : Bool) :
    RxRow.applies ⟨"RX_BD_START", 0x7FF, 0x200, none, none⟩ (rxWordOf row d) g =
      (row == 0b010#3 && d == 0#8) := by
  have hmask : rxWordOf row d &&& 0x7FF = rxWordOf row d := BitVec.and_allOnes
  have hword : (0x200 : RxWord) = rxWordOf 0b010#3 0#8 := rfl
  rw [RxRow.applies, hmask, hword, Bool.eq_iff_iff]
  simp [rxWordOf_inj]

theorem applies_rxBdAbort (row : BitVec 3) (d : Byte) (g : Bool) :
    RxRow.applies ⟨"RX_BD_ABORT", 0x700, 0x200, some 0x200, none⟩ (rxWordOf row d) g =
      (row == 0b010#3 && d != 0#8) := by
  have hword : (0x200 : RxWord) = rxWordOf 0b010#3 0#8 := rfl
  rw [RxRow.applies, rxWordOf_and_rowMask, hword, Bool.eq_iff_iff]
  simp only [Option.all_none, Bool.and_true, Bool.and_eq_true, and_true, beq_iff_eq,
    bne_iff_ne, ne_eq, Option.some.injEq, rxWordOf_inj]
  constructor
  · rintro ⟨rfl, hne⟩
    exact ⟨rfl, fun hd => hne ⟨rfl, hd.symm⟩⟩
  · rintro ⟨rfl, hd⟩
    exact ⟨rfl, fun h => hd h.2.symm⟩

/-! ## The row that applies -/

theorem rowBits_cases (row : BitVec 3) :
    row = 0b000#3 ∨ row = 0b001#3 ∨ row = 0b010#3 ∨ row = 0b011#3
      ∨ row = 0b100#3 ∨ row = 0b101#3 ∨ row = 0b110#3 ∨ row = 0b111#3 := by
  revert row
  decide

/-- R73 by row bits: they leave one row, but for 0b010, where data = 0x00 chooses between RX_BD_START
and RX_BD_ABORT, and 0b100, where g_hit chooses between RX_FS_SKIP and RX_FS_FIRST. -/
theorem rxTable_filter_applies (rw : RxWord) (g : Bool) :
    (rxTable.filter fun r => r.applies rw g).map RxRow.mnemonic = [(decodeRx rw g).mnemonic] := by
  refine rxWord_forall (p := fun w => (rxTable.filter fun r => r.applies w g).map RxRow.mnemonic
    = [(decodeRx w g).mnemonic]) (fun row d => ?_) rw
  simp only [rxTable, List.filter_cons, List.filter_nil, applies_rowMask, applies_rxBdStart,
    applies_rxBdAbort, decodeRx_rxWordOf]
  rcases rowBits_cases row with rfl | rfl | rfl | rfl | rfl | rfl | rfl | rfl
  · rfl
  · rfl
  · by_cases hd : d = 0#8
    · subst hd
      rfl
    · rw [beq_false_of_ne hd, bne, beq_false_of_ne hd, if_neg hd]
      rfl
  · rfl
  · cases g <;> rfl
  · rfl
  · rfl
  · rfl

/-- RX_DEFAULT has no row in the map (R74), so no word selects it. -/
theorem decodeRx_ne_rxDefault (rw : RxWord) (g : Bool) : decodeRx rw g ≠ .rxDefault := by
  intro h
  have hmem : (decodeRx rw g).mnemonic ∈ rxTable.map RxRow.mnemonic := by
    apply (List.filter_sublist.map RxRow.mnemonic).subset
    rw [rxTable_filter_applies rw g]
    exact List.mem_singleton_self _
  rw [h] at hmem
  revert hmem
  decide

theorem mapTable_filter_applies (mw : MapWord) :
    (mapTable.filter fun r => r.applies mw).map MapRow.mnemonic = [(decodeMap mw).mnemonic] := by
  revert mw
  decide

end Sys2Proof

namespace Sys2Proof.Machine

/-- R72: under IgnoreFlag fe' is 0 outside Idle, and in Idle no row is a framing-error row. -/
theorem selectRx_ne_fe_of_ignoreFlag {s : State} (h : s.cfg.fePolicy = .ignoreFlag) (e : RxEvent)
    (d : Byte) :
    selectRx e s ≠ .rxBdFe d ∧ selectRx e s ≠ .rxFsFe d ∧ selectRx e s ≠ .rxRcvFe d := by
  rw [selectRx_eq]
  by_cases hidle : s.rxState = .idle
  · rw [hidle]
    cases effectiveFe s e.fe <;> simp
  · rw [effectiveFe_ignore h hidle]
    cases hr : s.rxState with
    | idle => exact absurd hr hidle
    | breakDetected => by_cases hd : e.data = 0#8 <;> simp [hd]
    | frameStarted => cases gHit s <;> simp
    | receiving => simp

/-- Settles O5: row by row of R73's table, and by fe' of R72 for IgnoreFlag. -/
theorem rxOpcodeMapSelectsExactlyOneRow : Obligations.RxOpcodeMapSelectsExactlyOneRow :=
  ⟨fun rw g => ⟨rxTable_filter_applies rw g, decodeRx_ne_rxDefault rw g⟩,
    fun _ e d h => selectRx_ne_fe_of_ignoreFlag h e d⟩

/-- Settles O6: the eight words of R76, and the phase code of Poll for either flag. -/
theorem mapOpcodeMapSelectsExactlyOneRow : Obligations.MapOpcodeMapSelectsExactlyOneRow :=
  ⟨mapTable_filter_applies, fun s h => by rw [selectMap_eq, h]⟩

end Sys2Proof.Machine
end

section
/-! The receiver's steps of R100 to R112: which row an event selects in each state, the rows that only move rx_state, and what an RX step writes, emits and reads. -/

namespace Sys2Proof.Machine

/-! ## Which row an event selects in each state (R73) -/

theorem selectRx_byte_idle {s : State} (h : s.rxState = .idle) (d : Byte) :
    selectRx ⟨false, d⟩ s = .rxIdleIgnore d := by
  rw [selectRx_eq, h, effectiveFe_false]

theorem selectRx_byte_breakDetected {s : State} (h : s.rxState = .breakDetected) (d : Byte) :
    selectRx ⟨false, d⟩ s = if d = 0#8 then .rxBdStart else .rxBdAbort d := by
  rw [selectRx_eq, h, effectiveFe_false]

theorem selectRx_byte_eq_rxBdStart_iff {s : State} (h : s.rxState = .breakDetected) (d : Byte) :
    selectRx ⟨false, d⟩ s = .rxBdStart ↔ d = 0#8 := by
  rw [selectRx_byte_breakDetected h]
  by_cases hd : d = 0#8 <;> simp [hd]

theorem selectRx_ne_rxDefault (e : RxEvent) (s : State) : selectRx e s ≠ .rxDefault :=
  decodeRx_ne_rxDefault (rxWord s e) (gHit s)

section resetToIdle
variable {s : State} (hp : s.cfg.fePolicy = .resetToIdle) (d : Byte)
include hp

theorem selectRx_break_breakDetected (h : s.rxState = .breakDetected) :
    selectRx ⟨true, d⟩ s = .rxBdFe d := by
  rw [selectRx_eq, h, effectiveFe_reset hp]

theorem selectRx_break_frameStarted (h : s.rxState = .frameStarted) :
    selectRx ⟨true, d⟩ s = .rxFsFe d := by
  rw [selectRx_eq, h, effectiveFe_reset hp]

theorem selectRx_break_receiving (h : s.rxState = .receiving) :
    selectRx ⟨true, d⟩ s = .rxRcvFe d := by
  rw [selectRx_eq, h, effectiveFe_reset hp]

end resetToIdle

/-! ## The rows that move rx_state or nothing -/

section exec
variable (s : State) (d : Byte)

theorem exec_rxIdleIgnore : exec (.rxIdleIgnore d) s = .next s := rfl

theorem exec_rxBdStart : exec .rxBdStart s = .next { s with rxState := .frameStarted } := rfl

theorem exec_rxBdAbort : exec (.rxBdAbort d) s = .next { s with rxState := .idle } := rfl

theorem exec_rxBdFe : exec (.rxBdFe d) s = .next { s with rxState := .idle } := rfl

theorem exec_rxFsFe : exec (.rxFsFe d) s = .next { s with rxState := .idle } := rfl

theorem exec_rxRcvFe : exec (.rxRcvFe d) s = .next { s with rxState := .idle } := rfl

theorem exec_rxDefault : exec .rxDefault s = .next { s with rxState := .idle } := rfl

end exec

/-! ## What an RX step writes, emits and reads (R100) -/

theorem rxEmits_cases (i : Instr) : rxEmits i = [] ∨ rxEmits i = [.breakSeen] := by
  cases i with
  | rxIdleBreak d => exact .inr rfl
  | _ => exact .inl rfl

/-- R100's list of writes, by its complement: what an RX step keeps is every other field. -/
theorem deliver_rx_writes {e : RxEvent} {s t : State} (h : deliver (.rx e) s = .next t) :
    ∃ r a n m f, t = { s with
      rxState := r, addrCtr := a, fcc := n, buf := m, updatePending := f, output := t.output } := by
  obtain ⟨hcfg, hbase, hsched⟩ := deliver_keeps h
  obtain ⟨hphase, hidx, -, -⟩ := deliver_rx_effects h
  refine ⟨t.rxState, t.addrCtr, t.fcc, t.buf, t.updatePending, ?_⟩
  rw [← hcfg, ← hbase, ← hsched, ← hphase, ← hidx]

theorem deliver_rx_output {e : RxEvent} {s t : State} (h : deliver (.rx e) s = .next t) :
    t.output = s.output ∨ t.output = s.output ++ [.breakSeen] := by
  obtain ⟨-, -, -, hout⟩ := deliver_rx_effects h
  rw [hout]
  rcases rxEmits_cases (selectRx e s) with hnone | hbreak
  · exact .inl (by rw [hnone, List.append_nil])
  · exact .inr (by rw [hbreak])

/-- The two-run form of "never reads update_pending or map_phase": the events appended and whether the
flag is set are functions of the selected instruction, and selection reads RX's view alone. -/
theorem deliver_rx_two_runs {e : RxEvent} {s s' t : State} (hview : s'.rxView = s.rxView)
    (h : deliver (.rx e) s = .next t) :
    ∃ t', deliver (.rx e) s' = .next t' ∧ t'.rxView = t.rxView
      ∧ (∃ es, t.output = s.output ++ es ∧ t'.output = s'.output ++ es)
      ∧ ((t.updatePending = true ∧ t'.updatePending = true)
        ∨ (t.updatePending = s.updatePending ∧ t'.updatePending = s'.updatePending)) := by
  obtain ⟨t', h', hview'⟩ := deliver_rx_congr hview.symm h
  obtain ⟨-, -, hflag, hout⟩ := deliver_rx_effects h
  obtain ⟨-, -, hflag', hout'⟩ := deliver_rx_effects h'
  rw [selectRx_of_rxView hview e] at hflag' hout'
  refine ⟨t', h', hview', ⟨_, hout, hout'⟩, ?_⟩
  cases hset : rxSets (selectRx e s) with
  | true => exact .inl (by simp [hflag, hflag', hset])
  | false => exact .inr (by simp [hflag, hflag', hset])

/-- Settles O37: a step over one event delivers it, and equal views have equal configurations, so the
other run's step delivers it too. -/
theorem rxStepTouchesOnlyItsOwnState : Obligations.RxStepTouchesOnlyItsOwnState := by
  intro s t e hw hstep
  have hd : deliver (.rx e) s = .next t := (step_feed_one hw _).symm.trans hstep
  refine ⟨hd, deliver_rx_writes hd, deliver_rx_output hd, fun s' hview => ?_⟩
  have hcfg : s'.cfg = s.cfg := congrArg RxView.cfg hview
  rw [step_feed_one (hcfg ▸ hw)]
  exact deliver_rx_two_runs hview hd

/-! ## The rows of Idle, BreakDetected and framing errors -/

/-- Settles O14: in Idle fe = 0 leaves one row, whatever the byte. -/
theorem idleByteIsIgnored : Obligations.IdleByteIsIgnored := fun s d =>
  ⟨fun h => selectRx_byte_idle h d, exec_rxIdleIgnore s d⟩

/-- Settles O15: in BreakDetected the byte alone chooses between RX_BD_START and RX_BD_ABORT. -/
theorem zeroStartCodeStartsTheFrame : Obligations.ZeroStartCodeStartsTheFrame :=
  ⟨rfl, rfl, fun s =>
    ⟨selectRx_byte_eq_rxBdStart_iff, exec_rxBdStart s, State.Inv.addrCtr_zero⟩⟩

/-- Settles O16: the other half of that choice. -/
theorem nonZeroStartCodeAbortsTheFrame : Obligations.NonZeroStartCodeAbortsTheFrame :=
  fun s d hd =>
    ⟨fun h => (selectRx_byte_breakDetected h d).trans (if_neg hd), exec_rxBdAbort s d,
      State.Inv.addrCtr_zero⟩

/-- Settles O20: under ResetToIdle fe' is fe, so each state outside Idle has its own row. -/
theorem framingErrorOutsideIdleResetsToIdle :
    Obligations.FramingErrorOutsideIdleResetsToIdle := fun s d =>
  ⟨fun hp => ⟨selectRx_break_breakDetected hp d, selectRx_break_frameStarted hp d,
      selectRx_break_receiving hp d⟩,
    exec_rxBdFe s d, exec_rxFsFe s d, exec_rxRcvFe s d⟩

/-- Settles O21: RX_DEFAULT has no word, so no event selects it. -/
theorem unrecognizedStateGoesToIdle : Obligations.UnrecognizedStateGoesToIdle := fun s =>
  ⟨exec_rxDefault s, fun e => selectRx_ne_rxDefault e s⟩

end Sys2Proof.Machine
end

section
/-! The mapper's poll and clear steps of R131 and R132: which row MAP selects in Poll and in Clear, and what the two rows do. -/

namespace Sys2Proof.Machine

/-! ## Which row a MAP step selects in Poll and in Clear (R76) -/

theorem selectMap_poll {s : State} (h : s.mapPhase = .poll) :
    selectMap s = .mapPoll s.updatePending := by
  rw [selectMap_eq, h]

theorem selectMap_clear {s : State} (h : s.mapPhase = .clear) :
    selectMap s = .mapClear s.updatePending := by
  rw [selectMap_eq, h]

/-! ## What the two rows do -/

/-- R131 reads the state's flag; the copy `f` in the decode word plays no part. -/
theorem exec_mapPoll (f : Bool) (s : State) :
    exec (.mapPoll f) s = .next (if s.updatePending then { s with mapPhase := .clear } else s) := rfl

theorem exec_mapPoll_of_flag_clear (f : Bool) {s : State} (h : s.updatePending = false) :
    exec (.mapPoll f) s = .next s := by
  rw [exec_mapPoll, h, if_neg Bool.false_ne_true]

theorem exec_mapPoll_of_flag_set (f : Bool) {s : State} (h : s.updatePending = true) :
    exec (.mapPoll f) s = .next { s with mapPhase := .clear } := by
  rw [exec_mapPoll, if_pos h]

theorem exec_mapClear (f : Bool) (s : State) :
    exec (.mapClear f) s = .next
      { s with updatePending := false, mapIdx := 0, mapPhase := .chan } := rfl

/-- Settles O22: Poll selects MAP_POLL, and the state's flag chooses between its two outcomes. -/
theorem pollTestsTheFlag : Obligations.PollTestsTheFlag := fun _ f =>
  ⟨selectMap_poll, exec_mapPoll_of_flag_clear f, exec_mapPoll_of_flag_set f⟩

/-- Settles O23: Clear selects MAP_CLEAR, whose effect does not depend on the flag. -/
theorem clearConsumesTheFlag : Obligations.ClearConsumesTheFlag := fun s f =>
  ⟨selectMap_clear, exec_mapClear f s⟩

end Sys2Proof.Machine
end

section
/-! Words and numbers: the round trips of the decoder, the fields of the decode words, the register widths, and what a step does with the next word of its schedule. -/

namespace Sys2Proof

/-! ## Schedule words and statements (R80) -/

theorem encodeStatement_of_decodeStatement {w : SchedWord} {st : Statement}
    (h : decodeStatement w = .ok st) : encodeStatement st = w := by
  unfold decodeStatement at h
  split at h
  next hagent =>
    split at h
    next hbits =>
      cases h
      rw [← agentBit_append_eventBits w, hagent, hbits]
      rfl
    next => cases h
  next hagent =>
    cases h
    have hw := agentBit_append_eventBits w
    rw [eq_false_of_ne_true hagent] at hw
    exact (congrArg (BitVec.ofBool false ++ ·) (encodeEvent_decodeEvent _)).trans hw

/-- Bit 8 of an event's schedule word is fe, bits 7..0 are the data byte, and bit 9 is 0. -/
theorem getLsbD_encodeStatement_rx (e : RxEvent) (i : Nat) :
    (encodeStatement (.rx e)).getLsbD i =
      if i < 8 then e.data.getLsbD i else decide (i = 8) && e.fe := by
  rw [getLsbD_encode_rx, getLsbD_encodeEvent]
  rcases Nat.lt_trichotomy i 8 with h | rfl | h
  · simp [h, Nat.lt_succ_of_lt h]
  · simp
  · simp [show ¬ i < 8 by omega, show ¬ i < 9 by omega, show i ≠ 8 by omega]

theorem encodeStatement_byte (d : Byte) : encodeStatement (.byte d) = d.zeroExtend 10 := by
  apply BitVec.eq_of_getLsbD_eq
  intro i hi
  rw [getLsbD_encodeStatement_rx]
  by_cases h : i < 8
  · simp [h, hi]
  · simp [h, hi, BitVec.getLsbD_of_ge d i (by omega)]

theorem encodeStatement_brk (d : Byte) :
    encodeStatement (.brk d) = 0x100#10 ||| d.zeroExtend 10 := by
  have hbreak : 0x100#10 = BitVec.twoPow 10 8 := rfl
  rw [hbreak, ← encodeStatement_byte]
  apply BitVec.eq_of_getLsbD_eq
  intro i hi
  rw [BitVec.getLsbD_or, BitVec.getLsbD_twoPow, getLsbD_encodeStatement_rx,
    getLsbD_encodeStatement_rx]
  by_cases h : i < 8
  · simp [h, show 8 ≠ i by omega]
  · simp [h, eq_comm]

/-- Settles O2: both round trips, the words R80 rejects, and the words of its three statements. -/
theorem scheduleWordsAndStatementsCorrespond :
    Obligations.ScheduleWordsAndStatementsCorrespond :=
  ⟨decodeStatement_encodeStatement, fun _ _ h => encodeStatement_of_decodeStatement h,
    decodeStatement_error_iff, fun d => ⟨encodeStatement_brk d, encodeStatement_byte d⟩, rfl⟩

/-! ## Instructions and decode words (R73, R76) -/

theorem encode_eq_none_iff (i : Instr) : encode i = none ↔ i = .rxDefault := by
  cases i <;> simp [encode]

/-- The MAP decoder on a word given as phase code and flag bit. -/
theorem decodeMap_mapWordOf (phase : BitVec 2) (f : Bool) :
    decodeMap (mapWordOf phase f) =
      match phase.getLsbD 1, phase.getLsbD 0 with
      | false, false => .mapPoll f
      | false, true => .mapClear f
      | true, false => .mapChan f
      | true, true => .mapReserved f := by
  revert phase f
  decide

/-- Every row decodes by its own row bits; only RX_BD_ABORT needs its operand to be well-formed. -/
theorem decode_of_encode {i : Instr} (hi : i.wf = true) {w : DecodeWord}
    (h : encode i = some w) : decode w = i := by
  cases i with
  | rxBdStart => cases h; rfl
  | rxBdAbort d =>
    cases h
    have hd : d ≠ 0#8 := bne_iff_ne.1 hi
    exact (decodeRx_rxWordOf _ _ _).trans (if_neg hd)
  | rxDefault => cases h
  | mapPoll f | mapClear f | mapChan f | mapReserved f =>
    cases h
    exact decodeMap_mapWordOf _ _
  | _ d =>
    cases h
    exact decodeRx_rxWordOf _ _ _

/-- Settles O3: by the row of each instruction. -/
theorem decodeOfEncodeIsTheInstruction : Obligations.DecodeOfEncodeIsTheInstruction :=
  fun i hi => ⟨encode_eq_none_iff i, fun _ h => decode_of_encode hi h⟩

/-- By row bits: each row but 0b100 answers the same for both guards. -/
theorem encode_decodeRx (rw : RxWord) (g : Bool) : (decodeRx rw g).wf = true ∧
    ∃ g', encode (decodeRx rw g) = some (.rx rw g') ∧ decodeRx rw g' = decodeRx rw g := by
  refine rxWord_forall (p := fun w => (decodeRx w g).wf = true ∧
    ∃ g', encode (decodeRx w g) = some (.rx w g') ∧ decodeRx w g' = decodeRx w g)
    (fun row d => ?_) rw
  simp only [decodeRx_rxWordOf]
  rcases rowBits_cases row with rfl | rfl | rfl | rfl | rfl | rfl | rfl | rfl
  case inr.inr.inl => -- 0b010: the data byte chooses the row
    by_cases hd : d = 0#8
    · subst hd
      exact ⟨rfl, false, rfl, rfl⟩
    · rw [if_neg hd]
      exact ⟨bne_iff_ne.2 hd, false, rfl, rfl⟩
  case inr.inr.inr.inr.inl => -- 0b100: the guard chooses the row
    cases g <;> exact ⟨rfl, _, rfl, rfl⟩
  all_goals exact ⟨rfl, false, rfl, rfl⟩

theorem encode_decodeMap (mw : MapWord) :
    (decodeMap mw).wf = true ∧ encode (decodeMap mw) = some (.map mw) := by
  revert mw
  decide

/-- Settles O4: by row bits for RX, by the eight words for MAP. -/
theorem encodeOfDecodeIsTheWord : Obligations.EncodeOfDecodeIsTheWord :=
  ⟨encode_decodeRx, encode_decodeMap⟩

/-- Settles O7: nine closed words, each run through the decoder. -/
theorem sampleWordsDecode : Obligations.SampleWordsDecode := by
  unfold Obligations.SampleWordsDecode
  decide

end Sys2Proof

namespace Sys2Proof.Machine

/-! ## The fields of the decode words (R72, R75) -/

/-- The code of rx_state is the upper two of the row bits. -/
theorem stateBits_rxWord (s : State) (e : RxEvent) :
    (rxWord s e).extractLsb' 9 2 = rxCode s.rxState := by
  apply BitVec.eq_of_getLsbD_eq
  intro i hi
  have hbit : (rxWord s e).getLsbD (9 + i)
      = (rxCode s.rxState ++ BitVec.ofBool (effectiveFe s e.fe)).getLsbD (i + 1) := by
    rw [show 9 + i = i + 1 + 8 by omega, rxWord_eq, rowBit_rxWordOf]
  rw [BitVec.getLsbD_extractLsb', hbit, BitVec.getLsbD_append]
  simp [hi]

theorem rxData_rxWord (s : State) (e : RxEvent) : rxData (rxWord s e) = e.data := by
  rw [rxWord_eq, rxData_rxWordOf]

theorem feBit_rxWord (s : State) (e : RxEvent) :
    (rxWord s e).getLsbD 8 = effectiveFe s e.fe := by
  rw [rxWord_eq, rowBit_rxWordOf _ _ 0, BitVec.getLsbD_append]
  simp

theorem effectiveFe_of_ignoreFlag {s : State} (h : s.cfg.fePolicy = .ignoreFlag) (fe : Bool) :
    effectiveFe s fe = if s.rxState = .idle then fe else false := by
  split
  next hidle => exact effectiveFe_idle hidle fe
  next hidle => exact effectiveFe_ignore h hidle fe

theorem mapWord_fields (s : State) :
    (mapWord s).extractLsb' 1 2 = phaseCode s.mapPhase
      ∧ (mapWord s).getLsbD 0 = s.updatePending := by
  unfold mapWord
  cases s.mapPhase <;> cases s.updatePending <;> decide

/-- Settles O8: field by field. -/
theorem decodeWordFields : Obligations.DecodeWordFields := fun s e =>
  ⟨stateBits_rxWord s e, rxData_rxWord s e,
    fun h => (feBit_rxWord s e).trans (effectiveFe_reset h _),
    fun h => (feBit_rxWord s e).trans (effectiveFe_of_ignoreFlag h _),
    gHit_iff s, mapWord_fields s⟩

/-! ## StartAddress and the register widths -/

theorem startAddress_lt_two_pow {s : State} (h : s.cfg.wf = true) :
    (startAddress s).toNat < 2 ^ s.cfg.addrCtrWidth := by
  have hle := startAddress_le s
  have hrange := Config.addr_range h
  omega

/-- Settles O9: the sum of a 9-bit value and 1 fits in 10 bits, and a legal counter has at least 10.
-/
theorem startAddressNeverWraps : Obligations.StartAddressNeverWraps := fun s =>
  ⟨startAddress_toNat s, startAddress_pos s, startAddress_le s, startAddress_lt_two_pow⟩

/-- Settles O10: each width is a bound, and no smaller width is. -/
theorem counterWidthsAreLeast : Obligations.CounterWidthsAreLeast := fun c =>
  ⟨⟨lt_two_pow_fccWidth c, fun _ => fccWidth_le⟩, one_le_idxWidth c, le_two_pow_idxWidth c,
    fun _ => idxWidth_le⟩

/-! ## What a step does with the next word -/

/-- Settles O11: a step over one statement delivers it. -/
theorem stepRunsTheDecodedInstruction : Obligations.StepRunsTheDecodedInstruction := fun _ hw =>
  ⟨fun e => step_feed_one hw (.rx e), step_feed_one hw .map, step_nil hw⟩

theorem step_of_illegal_cfg {s : State} (h : s.cfg.wf = false) :
    step s = .refused .illegalConfiguration := by
  rw [step, fetch, h, if_neg Bool.false_ne_true]

theorem step_of_illegal_word {s : State} {w : SchedWord} {rest : List SchedWord}
    (hw : s.cfg.wf = true) (hs : s.schedule = w :: rest)
    (hd : ∃ err, decodeStatement w = .error err) : step s = .refused .illegalScheduleWord := by
  obtain ⟨err, hd⟩ := hd
  rw [step, fetch, if_pos hw, hs]
  simp only [hd]

/-- Settles O12: the configuration is looked at first, the word next. -/
theorem illegalInputsAreRefused : Obligations.IllegalInputsAreRefused :=
  ⟨fun _ => step_of_illegal_cfg, fun _ w _ hw hs hagent hbits =>
    step_of_illegal_word hw hs ((decodeStatement_error_iff w).2 ⟨hagent, hbits⟩)⟩

/-! ## Reset (R190) -/

/-- Memory with nothing listed reads as InitBuffer, which has NumChannels bytes (R9). -/
theorem bufRead_resetWith {c : Config} (hw : c.wf = true) (p : BaseAddr) {i : Nat}
    (hi : i < c.numChannels) :
    ∃ v, c.initBuffer[i]? = some v ∧ bufRead i (State.resetWith c p) = some v := by
  obtain ⟨-, -, -, -, -, -, hlen⟩ := (Config.wf_iff c).1 hw
  have hi' : i < c.initBuffer.length := hlen ▸ hi
  have hread : initByte c i = c.initBuffer[i] := by simp [initByte, hi']
  refine ⟨c.initBuffer[i], List.getElem?_eq_getElem hi', (bufRead_of_lt hi).trans ?_⟩
  rw [← hread]
  rfl

/-- Settles O1: the fields are those `State.resetWith` writes; the buffer is InitBuffer. -/
theorem resetValues : Obligations.ResetValues :=
  ⟨fun _ p hw => ⟨rfl, rfl, rfl, rfl, rfl, fun _ => bufRead_resetWith hw p, rfl, rfl, rfl, rfl⟩,
    rfl, by decide⟩

end Sys2Proof.Machine
end

section
/-! The instructions one by one: when each completes and the state it then leaves; who writes the flag, the buffer and the output; and the linear map. -/

namespace Sys2Proof.Machine

/-! ## When an instruction completes, and what it leaves -/

/-- Whether an instruction completes from a state: the index of a buffer access is in range (R53,
R108), and the reserved phase has no step (R136). -/
def completes (s : State) : Instr → Prop
  | .rxFsFirst _ => 1 ≤ s.cfg.numChannels
  | .rxRcvStore _ => 1 ≤ s.fcc ∧ s.fcc < s.cfg.numChannels
  | .mapChan _ => s.mapIdx < s.cfg.numChannels
  | .mapReserved _ => False
  | _ => True

/-- The state an instruction leaves where it completes. -/
def effect (s : State) : Instr → State
  | .rxIdleBreak _ =>
    { s with addrCtr := 0, output := s.output ++ [.breakSeen], rxState := .breakDetected }
  | .rxIdleIgnore _ | .mapReserved _ => s
  | .rxBdStart => { s with rxState := .frameStarted }
  | .rxBdAbort _ | .rxBdFe _ | .rxFsFe _ | .rxRcvFe _ | .rxDefault => { s with rxState := .idle }
  | .rxFsSkip _ => { s with addrCtr := nextAddr s }
  | .rxFsFirst d =>
    { s with
      addrCtr := nextAddr s
      fcc := 1
      buf := Memory.write s.cfg s.buf 0 d
      updatePending := true
      rxState := afterCapture s.cfg.numChannels 0 }
  | .rxRcvStore d =>
    { s with
      fcc := s.fcc + 1
      buf := Memory.write s.cfg s.buf s.fcc d
      rxState := afterCapture s.cfg.numChannels s.fcc }
  | .mapPoll _ => { s with mapPhase := if s.updatePending then .clear else s.mapPhase }
  | .mapClear _ => { s with updatePending := false, mapIdx := 0, mapPhase := .chan }
  | .mapChan _ =>
    { s with
      output := s.output ++ channelEvents s.cfg s.mapIdx (s.byteAt s.mapIdx)
      mapPhase := if s.mapIdx + 1 < s.cfg.numChannels then s.mapPhase else .poll
      mapIdx := if s.mapIdx + 1 < s.cfg.numChannels then s.mapIdx + 1 else 0 }

theorem exec_of_completes {i : Instr} {s : State} (h : completes s i) :
    exec i s = .next (effect s i) := by
  cases i with
  | rxFsFirst d => exact execRxFsFirst_of_pos d h
  | rxRcvStore d => exact execRxRcvStore_of_range d h.1 h.2
  | mapPoll f =>
    by_cases hf : s.updatePending = true
    · rw [exec_mapPoll_of_flag_set f hf]
      simp only [effect, if_pos hf]
    · rw [exec_mapPoll_of_flag_clear f (eq_false_of_ne_true hf)]
      simp only [effect, if_neg hf]
  | mapChan f =>
    by_cases hi : s.mapIdx + 1 < s.cfg.numChannels
    · rw [execMapChan_more f hi]
      simp [effect, hi]
    · have hlast : s.mapIdx + 1 = s.cfg.numChannels := Nat.le_antisymm h (Nat.le_of_not_lt hi)
      rw [execMapChan_last f hlast]
      simp [effect, hi]
  | mapReserved f => exact h.elim
  | _ => rfl

theorem completes_of_exec {i : Instr} {s t : State} (h : exec i s = .next t) : completes s i := by
  cases i with
  | rxFsFirst d => exact (captureByte_next h).1
  | rxRcvStore d =>
    refine by_contra fun hr => ?_
    rw [execRxRcvStore_out_of_range d hr] at h
    cases h
  | mapChan f =>
    refine by_contra fun hi => ?_
    rw [execMapChan_of_ge f (Nat.le_of_not_lt hi)] at h
    cases h
  | mapReserved f => cases h
  | _ => trivial

/-- What every instruction does, said once. -/
theorem exec_next_iff {i : Instr} {s t : State} :
    exec i s = .next t ↔ completes s i ∧ t = effect s i := by
  constructor
  · intro h
    have hc := completes_of_exec h
    exact ⟨hc, Host.Outcome.next.inj (h.symm.trans (exec_of_completes hc))⟩
  · rintro ⟨hc, rfl⟩
    exact exec_of_completes hc

/-! ## Who writes the flag, the buffer and the output -/

theorem effect_updatePending (s : State) (i : Instr) :
    (effect s i).updatePending =
      match i with
      | .rxFsFirst _ => true
      | .mapClear _ => false
      | _ => s.updatePending := by
  cases i <;> rfl

/-- Settles O39: RX_FS_FIRST writes the flag 1, MAP_CLEAR writes it 0, and no other row writes it.
-/
theorem flagIsSetByCaptureAndClearedByMap : Obligations.FlagIsSetByCaptureAndClearedByMap := by
  intro s t i h
  obtain ⟨-, rfl⟩ := exec_next_iff.1 h
  rw [effect_updatePending]
  cases i with
  | rxFsFirst d => exact ⟨fun _ _ => ⟨d, rfl⟩, nofun⟩
  | mapClear f => exact ⟨nofun, fun _ _ => ⟨f, rfl⟩⟩
  | _ =>
    exact ⟨fun h0 h1 => Bool.noConfusion (h0.symm.trans h1),
      fun h1 h0 => Bool.noConfusion (h0.symm.trans h1)⟩

/-- Memory after an instruction: written by the two rows that capture a byte. -/
theorem effect_byteAt (s : State) (i : Instr) (a : Nat) :
    (effect s i).byteAt a =
      match i with
      | .rxFsFirst d => Memory.read s.cfg (Memory.write s.cfg s.buf 0 d) a
      | .rxRcvStore d => Memory.read s.cfg (Memory.write s.cfg s.buf s.fcc d) a
      | _ => s.byteAt a := by
  cases i <;> rfl

/-- Settles O40: the two rows that write memory each change one index. -/
theorem bufferIsWrittenOnlyByCapture : Obligations.BufferIsWrittenOnlyByCapture := by
  intro s t i h a ha
  obtain ⟨-, rfl⟩ := exec_next_iff.1 h
  rw [effect_byteAt] at ha
  cases i with
  | rxFsFirst d =>
    exact .inl ⟨d, rfl, by_contra fun hne => ha (Memory.read_write_other hne _ _ _)⟩
  | rxRcvStore d =>
    exact .inr ⟨d, rfl, by_contra fun hne => ha (Memory.read_write_other hne _ _ _)⟩
  | _ => exact absurd rfl ha

/-- Settles O41: the output each instruction leaves, row by row. -/
theorem outputGrowsOnlyByBreakAndChannel : Obligations.OutputGrowsOnlyByBreakAndChannel := by
  intro s t i h
  obtain ⟨-, rfl⟩ := exec_next_iff.1 h
  cases i <;> rfl

/-! ## Single instructions -/

theorem selectRx_break_idle {s : State} (h : s.rxState = .idle) (d : Byte) :
    selectRx ⟨true, d⟩ s = .rxIdleBreak d := by
  rw [selectRx_eq, h, effectiveFe_idle h]

theorem selectRx_byte_frameStarted {s : State} (h : s.rxState = .frameStarted) (d : Byte) :
    selectRx ⟨false, d⟩ s = if gHit s then .rxFsFirst d else .rxFsSkip d := by
  rw [selectRx_eq, h, effectiveFe_false]

theorem selectRx_byte_receiving {s : State} (h : s.rxState = .receiving) (d : Byte) :
    selectRx ⟨false, d⟩ s = .rxRcvStore d := by
  rw [selectRx_eq, h, effectiveFe_false]

theorem selectMap_chan {s : State} (h : s.mapPhase = .chan) :
    selectMap s = .mapChan s.updatePending := by
  rw [selectMap_eq, h]

theorem selectMap_reserved {s : State} (h : s.mapPhase = .reserved) :
    selectMap s = .mapReserved s.updatePending := by
  rw [selectMap_eq, h]

/-- Settles O13: in Idle fe' is fe. -/
theorem idleBreakStartsABreakCycle : Obligations.IdleBreakStartsABreakCycle := fun _ d =>
  ⟨fun h => selectRx_break_idle h d, exec_of_completes trivial⟩

/-- Settles O17: without the guard the byte is counted. -/
theorem slotBeforeTheWindowIsSkipped : Obligations.SlotBeforeTheWindowIsSkipped := fun s d =>
  ⟨fun h hg => by rw [selectRx_byte_frameStarted h, hg, if_neg Bool.false_ne_true],
    exec_of_completes (s := s) (i := .rxFsSkip d) trivial⟩

/-- Settles O18: with the guard the byte is captured at index 0. -/
theorem firstWindowSlotIsCaptured : Obligations.FirstWindowSlotIsCaptured := by
  intro s d
  refine ⟨fun h hg => by rw [selectRx_byte_frameStarted h, if_pos hg], fun hn =>
    ⟨Memory.write s.cfg s.buf 0 d, ?_, Memory.read_write_self _ _ _ _,
      fun _ ha => Memory.read_write_other ha _ _ _⟩⟩
  rw [execRxFsFirst_of_pos d hn]
  simp [afterCapture, nextAddr, eq_comm]

/-- Settles O19: the range of fcc decides between storing the byte and the fault. -/
theorem windowByteIsStored : Obligations.WindowByteIsStored := fun s d =>
  ⟨fun h => selectRx_byte_receiving h d,
    fun h1 h2 => ⟨Memory.write s.cfg s.buf s.fcc d, execRxRcvStore_of_range d h1 h2,
      Memory.read_write_self _ _ _ _, fun _ ha => Memory.read_write_other ha _ _ _⟩,
    execRxRcvStore_out_of_range d⟩

/-- Settles O24: before the last channel, at it, and past it. -/
theorem channelStepDrivesOneChannel : Obligations.ChannelStepDrivesOneChannel := fun _ f =>
  ⟨selectMap_chan, execMapChan_more f, execMapChan_last f, execMapChan_of_ge f⟩

/-- Settles O25: MAP_RESERVED has no meaning in any state. -/
theorem reservedPhaseIsRefused : Obligations.ReservedPhaseIsRefused := fun _ _ =>
  ⟨selectMap_reserved, rfl⟩

/-! ## The linear map and the noise threshold -/

/-- Settles O26: the clamp is the identity, and what is left is a division with its remainder. -/
theorem linearMapIsFloorDivision : Obligations.LinearMapIsFloorDivision := fun c v h =>
  ⟨v.toNat * (c.actuatorMax - c.actuatorMin) / dmxMaxValue, mapValue_eq h v,
    Nat.mul_div_le _ _, Nat.lt_mul_div_succ _ (by decide)⟩

theorem mapValue_zero {c : Config} (h : c.actuatorMin ≤ c.actuatorMax) :
    mapValue c 0#8 = c.actuatorMin := by
  rw [mapValue_eq h]
  simp

theorem mapValue_max {c : Config} (h : c.actuatorMin ≤ c.actuatorMax) :
    mapValue c 255#8 = c.actuatorMax := by
  have hscaled : (255#8 : Byte).toNat * (c.actuatorMax - c.actuatorMin) / dmxMaxValue
      = c.actuatorMax - c.actuatorMin := Nat.mul_div_cancel_left _ (by decide)
  rw [mapValue_eq h, hscaled, Nat.add_sub_cancel' h]

/-- Settles O27: both ends, the order, and the bounds, which meet when the ends are equal. -/
theorem linearMapLaws : Obligations.LinearMapLaws := fun _ h =>
  ⟨mapValue_zero h, mapValue_max h, fun _ _ => mapValue_mono h, mapValue_bounds h,
    fun heq v => Nat.le_antisymm (heq ▸ (mapValue_bounds h v).2) (mapValue_bounds h v).1⟩

theorem isActive_iff (c : Config) (v : Byte) : isActive c v = true ↔ v.toNat > c.noiseThreshold :=
  decide_eq_true_iff

/-- Settles O28: the comparison is strict, and no byte exceeds 255. -/
theorem activeMeansAboveTheThreshold : Obligations.ActiveMeansAboveTheThreshold := by
  refine fun c v => ⟨isActive_iff c v, fun h => Bool.eq_false_iff.2 fun hactive => ?_⟩
  have hgt := (isActive_iff c v).1 hactive
  have hlt := v.isLt
  omega

/-! ## The buffer -/

theorem bufRead_congr {s t : State} {i : Nat} (hc : t.cfg = s.cfg) (h : t.byteAt i = s.byteAt i) :
    bufRead i t = bufRead i s := by
  rw [bufRead, bufRead, hc, h]

/-- Settles O29: a write in range is read back and touches one index; out of range it faults. -/
theorem bufferReadsTheLatestWrite : Obligations.BufferReadsTheLatestWrite := by
  refine fun s i v => ⟨fun hi => ⟨_, bufWrite_of_lt v hi, ?_, fun a ha => ?_⟩,
    fun hi => ⟨bufWrite_of_ge v hi, bufRead_of_ge hi⟩⟩
  · have hread := Memory.read_write_self s.cfg s.buf i v
    exact (bufRead_of_lt (by exact hi)).trans (congrArg some hread)
  · have hread := Memory.read_write_other ha s.cfg s.buf v
    exact ⟨hread, bufRead_congr rfl hread⟩

/-- What a canonical memory lists is determined by what it reads as, and rising lists by what they
list. -/
theorem Memory.eq_of_read_eq {c : Config} {m n : Memory} (hm : Memory.wf c m = true)
    (hn : Memory.wf c n = true) (h : ∀ a, Memory.read c m a = Memory.read c n a) : m = n := by
  refine Memory.eq_of_find_eq ((Memory.wf_iff c m).1 hm).1 ((Memory.wf_iff c n).1 hn).1 fun a => ?_
  rw [Memory.find_of_read hm, Memory.find_of_read hn, h a]

/-- Settles O30: a write keeps the form, and a canonical memory has one list for its reads. -/
theorem canonicalMemoryIsDeterminedByItsReads : Obligations.CanonicalMemoryIsDeterminedByItsReads :=
  ⟨fun _ _ _ v hm ha => Memory.wf_write v hm ha, fun _ _ _ => Memory.eq_of_read_eq⟩

end Sys2Proof.Machine
end

section
/-! The steps of the two agents by state, and the invariant: every step keeps it, and from a state that meets it every statement has a step. -/

namespace Sys2Proof.Machine

/-! ## What a step of each agent does, by state -/

/-- The moves of RX on an event (R73, R101 to R111). -/
inductive RxMove (s : State) (e : RxEvent) : State → Prop
  | openBreak (h : s.rxState = .idle) (hf : effectiveFe s e.fe = true) :
      RxMove s e
        { s with addrCtr := 0, output := s.output ++ [.breakSeen], rxState := .breakDetected }
  | ignore (h : s.rxState = .idle) (hf : effectiveFe s e.fe = false) : RxMove s e s
  | start (h : s.rxState = .breakDetected) (hf : effectiveFe s e.fe = false)
      (hd : e.data = 0#8) : RxMove s e { s with rxState := .frameStarted }
  | discard (h : s.rxState = .breakDetected) (hf : effectiveFe s e.fe = false)
      (hd : e.data ≠ 0#8) : RxMove s e { s with rxState := .idle }
  | skip (h : s.rxState = .frameStarted) (hf : effectiveFe s e.fe = false)
      (hg : gHit s = false) : RxMove s e { s with addrCtr := nextAddr s }
  | first (h : s.rxState = .frameStarted) (hf : effectiveFe s e.fe = false)
      (hg : gHit s = true) (hn : 1 ≤ s.cfg.numChannels) :
      RxMove s e
        { s with
          addrCtr := nextAddr s
          fcc := 1
          buf := Memory.write s.cfg s.buf 0 e.data
          updatePending := true
          rxState := afterCapture s.cfg.numChannels 0 }
  | store (h : s.rxState = .receiving) (hf : effectiveFe s e.fe = false)
      (h1 : 1 ≤ s.fcc) (h2 : s.fcc < s.cfg.numChannels) :
      RxMove s e
        { s with
          fcc := s.fcc + 1
          buf := Memory.write s.cfg s.buf s.fcc e.data
          rxState := afterCapture s.cfg.numChannels s.fcc }
  | abort (h : s.rxState ≠ .idle) (hf : effectiveFe s e.fe = true) :
      RxMove s e { s with rxState := .idle }

/-- The moves of MAP (R131, R132, R134). -/
inductive MapMove (s : State) : State → Prop
  | stay (h : s.mapPhase = .poll) (hf : s.updatePending = false) : MapMove s s
  | wake (h : s.mapPhase = .poll) (hf : s.updatePending = true) :
      MapMove s { s with mapPhase := .clear }
  | clear (h : s.mapPhase = .clear) :
      MapMove s { s with updatePending := false, mapIdx := 0, mapPhase := .chan }
  | drive (h : s.mapPhase = .chan) (hi : s.mapIdx + 1 < s.cfg.numChannels) :
      MapMove s
        { s with
          output := s.output ++ channelEvents s.cfg s.mapIdx (s.byteAt s.mapIdx)
          mapIdx := s.mapIdx + 1 }
  | driveLast (h : s.mapPhase = .chan) (hi : s.mapIdx + 1 = s.cfg.numChannels) :
      MapMove s
        { s with
          output := s.output ++ channelEvents s.cfg s.mapIdx (s.byteAt s.mapIdx)
          mapPhase := .poll
          mapIdx := 0 }

theorem rxMove_of_deliver {e : RxEvent} {s t : State} (h : deliver (.rx e) s = .next t) :
    RxMove s e t := by
  obtain ⟨hc, rfl⟩ := exec_next_iff.1 (show exec (selectRx e s) s = .next t from h)
  rw [selectRx_eq] at hc ⊢
  cases hr : s.rxState <;> cases hf : effectiveFe s e.fe <;> simp only [hr, hf] at hc ⊢
  · exact .ignore hr hf
  · exact .openBreak hr hf
  · by_cases hd : e.data = 0#8
    · rw [if_pos hd]
      exact .start hr hf hd
    · rw [if_neg hd]
      exact .discard hr hf hd
  · exact .abort (by simp [hr]) hf
  · cases hg : gHit s <;> simp only [hg] at hc ⊢
    · exact .skip hr hf hg
    · exact .first hr hf hg hc
  · exact .abort (by simp [hr]) hf
  · exact .store hr hf hc.1 hc.2
  · exact .abort (by simp [hr]) hf

/-- An event has a step where what RX may store is in range. -/
theorem exists_deliver_rx (e : RxEvent) {s : State} (hn : 1 ≤ s.cfg.numChannels)
    (hr : s.rxState = .receiving → 1 ≤ s.fcc ∧ s.fcc < s.cfg.numChannels) :
    ∃ t, deliver (.rx e) s = .next t := by
  suffices hc : completes s (selectRx e s) from ⟨_, exec_of_completes hc⟩
  rw [selectRx_eq]
  cases hrx : s.rxState <;> cases effectiveFe s e.fe
  case breakDetected.false => by_cases hd : e.data = 0#8 <;> simp [hd, completes]
  case frameStarted.false => cases gHit s <;> simp [completes, hn]
  case receiving.false => exact hr hrx
  all_goals trivial

/-- With the flag 0, Poll stays as it is (R138). -/
theorem deliver_stay {s : State} (hp : s.mapPhase = .poll) (hf : s.updatePending = false) :
    deliver .map s = .next s := by
  rw [deliver_poll hp, hf, if_neg Bool.false_ne_true]

theorem deliver_wake {s : State} (hp : s.mapPhase = .poll) (hf : s.updatePending = true) :
    deliver .map s = .next { s with mapPhase := .clear } := by
  rw [deliver_poll hp, if_pos hf]

theorem mapMove_of_deliver {s t : State} (h : deliver .map s = .next t) : MapMove s t := by
  cases hp : s.mapPhase with
  | poll =>
    cases hf : s.updatePending with
    | false =>
      rw [deliver_stay hp hf] at h
      cases h
      exact .stay hp hf
    | true =>
      rw [deliver_wake hp hf] at h
      cases h
      exact .wake hp hf
  | clear =>
    rw [deliver_clear hp] at h
    cases h
    exact .clear hp
  | chan =>
    obtain ⟨hi, -⟩ := exec_next_iff.1 (show exec (selectMap s) s = .next t from h)
    rw [selectMap_chan hp] at hi
    rcases Nat.lt_or_eq_of_le (show s.mapIdx + 1 ≤ s.cfg.numChannels from hi) with hlt | heq
    · rw [deliver_chan_more hp hlt] at h
      cases h
      exact .drive hp hlt
    · rw [deliver_chan_last hp heq] at h
      cases h
      exact .driveLast hp heq
  | reserved =>
    obtain ⟨hc, -⟩ := exec_next_iff.1 (show exec (selectMap s) s = .next t from h)
    rw [selectMap_reserved hp] at hc
    exact hc.elim

/-- MAP has a step outside the reserved phase, with the index in range. -/
theorem exists_deliver_map {s : State} (hp : s.mapPhase ≠ .reserved)
    (hi : s.mapIdx < s.cfg.numChannels) : ∃ t, deliver .map s = .next t := by
  suffices hc : completes s (selectMap s) from ⟨_, exec_of_completes hc⟩
  rw [selectMap_eq]
  cases hphase : s.mapPhase with
  | reserved => exact absurd hphase hp
  | chan => exact hi
  | _ => trivial

/-! ## The invariant -/

namespace State.Inv

section facts
variable {s : State} (h : s.Inv)
include h

theorem numChannels_pos : 1 ≤ s.cfg.numChannels := ((Config.wf_iff _).1 h.cfg_legal).1

theorem fcc_range (hr : s.rxState = .receiving) : 1 ≤ s.fcc ∧ s.fcc < s.cfg.numChannels := by
  have hpos := h.numChannels_pos
  obtain ⟨h1, h2⟩ := h.receiving hr
  omega

theorem nextAddr_eq (hr : s.rxState = .frameStarted) : nextAddr s = s.addrCtr + 1 :=
  nextAddr_of_lt h.cfg_legal (h.before_window hr)

/-- In FrameStarted the guard holds in the slot before StartAddress, and no earlier. -/
theorem gHit_iff (hr : s.rxState = .frameStarted) :
    gHit s = true ↔ s.addrCtr + 1 = (startAddress s).toNat := by
  rw [Machine.gHit_iff, h.nextAddr_eq hr]

end facts

/-- The invariant does not read the schedule. -/
theorem withSchedule {s : State} (h : s.Inv) (ws : List SchedWord) :
    State.Inv { s with schedule := ws } :=
  { h with }

theorem feed {s : State} (h : s.Inv) (sts : List Statement) : (s.feed sts).Inv := h.withSchedule _

end State.Inv

/-- The events of a channel are in range under a legal configuration (R137, R163). -/
theorem channelEvents_inRange {c : Config} (hw : c.wf = true) {i : Nat} (hi : i < c.numChannels)
    (v : Byte) : ∀ e ∈ channelEvents c i v, e.inRange c := by
  obtain ⟨-, -, hle, hwidth, -⟩ := (Config.wf_iff c).1 hw
  obtain ⟨hlo, hhi⟩ := mapValue_bounds hle v
  simp only [channelEvents, List.mem_cons, List.not_mem_nil, or_false, forall_eq_or_imp, forall_eq]
  exact ⟨⟨hi, hlo, hhi, Nat.lt_of_le_of_lt hhi hwidth⟩, hi⟩

/-- The output after a channel was driven is in range. -/
theorem State.Inv.output_driven {s : State} (h : s.Inv) :
    ∀ e ∈ s.output ++ channelEvents s.cfg s.mapIdx (s.byteAt s.mapIdx), e.inRange s.cfg := by
  intro e he
  rcases List.mem_append.1 he with he | he
  · exact h.output_inRange e he
  · exact channelEvents_inRange h.cfg_legal h.mapIdx_lt _ e he

theorem afterCapture_eq_receiving {n i : Nat} (h : afterCapture n i = .receiving) : i + 1 ≠ n := by
  intro heq
  simp [afterCapture, heq] at h

theorem afterCapture_cases (n i : Nat) :
    afterCapture n i = .idle ∨ afterCapture n i = .receiving := by
  unfold afterCapture
  split
  · exact .inl rfl
  · exact .inr rfl

/-- Capturing a byte in range keeps the invariant, whatever it does to addr_ctr and the flag. -/
theorem State.Inv.capture {s : State} (h : s.Inv) (hr : s.rxState ≠ .idle) {i : Nat}
    (hi : i < s.cfg.numChannels) (d : Byte) {a : Nat} (ha : a < 2 ^ s.cfg.addrCtrWidth) {f : Bool}
    (hf : s.updatePending = true → f = true) :
    State.Inv
      { s with
        addrCtr := a
        fcc := i + 1
        buf := Memory.write s.cfg s.buf i d
        updatePending := f
        rxState := afterCapture s.cfg.numChannels i } where
  cfg_legal := h.cfg_legal
  addrCtr_fits := ha
  fcc_le := hi
  receiving hrcv := by
    have hne := afterCapture_eq_receiving hrcv
    show 1 ≤ i + 1 ∧ i + 1 ≤ s.cfg.numChannels - 1
    omega
  break_seen _ := h.break_seen hr
  addrCtr_zero hbd := by rcases afterCapture_cases s.cfg.numChannels i with hc | hc <;> simp_all
  before_window hfs := by rcases afterCapture_cases s.cfg.numChannels i with hc | hc <;> simp_all
  phase_legal := h.phase_legal
  mapIdx_lt := h.mapIdx_lt
  clear_pending hclear := hf (h.clear_pending hclear)
  buf_canonical := Memory.wf_write d h.buf_canonical hi
  output_inRange := h.output_inRange

theorem State.Inv.gotoIdle {s : State} (h : s.Inv) : State.Inv { s with rxState := .idle } :=
  { h with
    receiving := nofun
    break_seen := fun hne => absurd rfl hne
    addrCtr_zero := nofun
    before_window := nofun }

theorem State.Inv.rxMove {s t : State} {e : RxEvent} (h : s.Inv) (hm : RxMove s e t) : t.Inv := by
  cases hm with
  | openBreak hr hf =>
    exact { h with
      addrCtr_fits := Nat.pow_pos (by decide)
      receiving := nofun
      break_seen := fun _ => by simp
      addrCtr_zero := fun _ => rfl
      before_window := nofun
      output_inRange := fun e he => by
        rcases List.mem_append.1 he with he | he
        · exact h.output_inRange e he
        · rw [List.mem_singleton.1 he]
          trivial }
  | ignore hr hf => exact h
  | start hr hf hd =>
    have hzero := h.addrCtr_zero hr
    exact { h with
      receiving := nofun
      break_seen := fun _ => h.break_seen (by simp [hr])
      addrCtr_zero := nofun
      before_window := fun _ => hzero ▸ startAddress_pos s }
  | discard hr hf hd => exact h.gotoIdle
  | skip hr hf hg =>
    have hlt := h.before_window hr
    have hnext := h.nextAddr_eq hr
    have hne : s.addrCtr + 1 ≠ (startAddress s).toNat := fun heq => by
      simp [(h.gHit_iff hr).2 heq] at hg
    exact { h with
      addrCtr_fits := nextAddr_lt s
      addrCtr_zero := fun hbd => by simp [hr] at hbd
      before_window := fun _ => by
        show nextAddr s < (startAddress s).toNat
        omega }
  | first hr hf hg hn => exact h.capture (by simp [hr]) hn _ (nextAddr_lt s) fun _ => rfl
  | store hr hf h1 h2 => exact h.capture (by simp [hr]) h2 _ h.addrCtr_fits id
  | abort hr hf => exact h.gotoIdle

theorem State.Inv.mapMove {s t : State} (h : s.Inv) (hm : MapMove s t) : t.Inv := by
  cases hm with
  | stay hp hf => exact h
  | wake hp hf => exact { h with phase_legal := nofun, clear_pending := fun _ => hf }
  | clear hp =>
    exact { h with
      phase_legal := nofun
      mapIdx_lt := h.numChannels_pos
      clear_pending := nofun }
  | drive hp hi =>
    exact { h with
      mapIdx_lt := hi
      clear_pending := fun hc => by simp [hp] at hc
      break_seen := fun hr => List.mem_append_left _ (h.break_seen hr)
      output_inRange := h.output_driven }
  | driveLast hp hi =>
    exact { h with
      phase_legal := nofun
      mapIdx_lt := h.numChannels_pos
      clear_pending := nofun
      break_seen := fun hr => List.mem_append_left _ (h.break_seen hr)
      output_inRange := h.output_driven }

theorem State.Inv.deliver {s t : State} {st : Statement} (h : s.Inv)
    (hd : deliver st s = .next t) : t.Inv := by
  cases st with
  | rx e => exact h.rxMove (rxMove_of_deliver hd)
  | map => exact h.mapMove (mapMove_of_deliver hd)

theorem schedule_of_deliver {st : Statement} {s t : State} (h : deliver st s = .next t) :
    t.schedule = s.schedule := by
  obtain ⟨-, -, hsched⟩ := deliver_keeps h
  exact hsched

/-- From a state that meets the invariant every statement has a step. -/
theorem State.Inv.exists_deliver {s : State} (h : s.Inv) (st : Statement) :
    ∃ t, Machine.deliver st s = .next t := by
  cases st with
  | rx e => exact exists_deliver_rx e h.numChannels_pos h.fcc_range
  | map => exact exists_deliver_map h.phase_legal h.mapIdx_lt

theorem State.Inv.step {s t : State} (h : s.Inv) (hs : step s = .next t) : t.Inv := by
  obtain ⟨-, ⟨-, hd⟩ | ⟨st, w, rest, -, -, hd⟩⟩ := step_cases hs
  · exact h.deliver hd
  · exact (h.withSchedule rest).deliver hd

/-- Settles O31: move by move of each agent. -/
theorem stepKeepsTheInvariant : Obligations.StepKeepsTheInvariant := fun _ _ h hs => h.step hs

/-- Settles O32: reset is Idle and Poll with nothing written or emitted. -/
theorem resetMeetsTheInvariant : Obligations.ResetMeetsTheInvariant := fun c p ws hw =>
  { cfg_legal := hw
    addrCtr_fits := Nat.pow_pos (by decide)
    fcc_le := Nat.zero_le _
    receiving := nofun
    break_seen := fun hne => absurd rfl hne
    addrCtr_zero := nofun
    before_window := nofun
    phase_legal := nofun
    mapIdx_lt := ((Config.wf_iff c).1 hw).1
    clear_pending := nofun
    buf_canonical := Memory.wf_nil c
    output_inRange := nofun }

theorem Reachable.inv {s : State} (h : Reachable s) : s.Inv := by
  induction h with
  | start c p ws hw => exact resetMeetsTheInvariant c p ws hw
  | step hs hstep ih => exact ih.step hstep

/-! ## What the invariant gives for reachable states -/

theorem State.Inv.exists_step_feed_one {s : State} (h : s.Inv) (st : Statement) :
    ∃ t, Machine.step (s.feed [st]) = .next t := by
  rw [step_feed_one h.cfg_legal]
  exact h.exists_deliver st

/-- A schedule of legal words has a first statement, fed to the rest, or nothing. -/
theorem eq_feed_of_legalSchedule {s : State} (hl : legalSchedule s.schedule) :
    s.schedule = [] ∨ ∃ st rest, legalSchedule rest
      ∧ s = State.feed [st] { s with schedule := rest } := by
  cases hs : s.schedule with
  | nil => exact .inl rfl
  | cons w rest =>
    rw [hs] at hl
    obtain ⟨st, hst⟩ := hl w List.mem_cons_self
    refine .inr ⟨st, rest, fun v hv => hl v (List.mem_cons_of_mem _ hv), ?_⟩
    show s = { s with schedule := encodeStatement st :: rest }
    rw [encodeStatement_of_decodeStatement hst, ← hs]

theorem State.Inv.exists_step {s : State} (h : s.Inv) (hl : legalSchedule s.schedule) :
    ∃ t, Machine.step s = .next t ∧ legalSchedule t.schedule := by
  rcases eq_feed_of_legalSchedule hl with hnil | ⟨st, rest, hrest, hfeed⟩
  · obtain ⟨t, ht⟩ := h.exists_deliver .map
    refine ⟨t, (step_nil h.cfg_legal hnil).trans ht, ?_⟩
    rw [schedule_of_deliver ht]
    exact hl
  · obtain ⟨t, ht⟩ := (h.withSchedule rest).exists_deliver st
    refine ⟨t, ?_, ?_⟩
    · rw [hfeed, step_feed_one (by exact h.cfg_legal)]
      exact ht
    · rw [schedule_of_deliver ht]
      exact hrest

/-- Settles O33: reachable states meet the invariant, under which every statement has a step. -/
theorem noStepOfAReachableStateFails : Obligations.NoStepOfAReachableStateFails := fun _ hs =>
  ⟨fun w => hs.inv.exists_step_feed_one (.rx (decodeEvent w)), hs.inv.exists_step_feed_one .map,
    hs.inv.exists_step⟩

/-- Settles O34: R113 (a), (b) and (d) are part of the invariant; for (c) RX_RCV_STORE is selected
in Receiving alone. -/
theorem receiverInvariantsOfReachableStates : Obligations.ReceiverInvariantsOfReachableStates := by
  refine fun s hs => ⟨hs.inv.receiving, hs.inv.fcc_le, fun hr => hs.inv.break_seen ?_,
    fun e d => ⟨fun _ => hs.inv.numChannels_pos, fun hsel => ?_⟩⟩
  · rcases hr with hr | hr <;> simp [hr]
  · obtain ⟨t, ht⟩ := hs.inv.exists_deliver (.rx e)
    have hc := completes_of_exec (show exec (selectRx e s) s = .next t from ht)
    rw [hsel] at hc
    exact hc.2

/-- Settles O35: the invariant bounds each value by NumChannels or by the actuator's range, and each
width holds its bound. -/
theorem emittedValuesAreInRange : Obligations.EmittedValuesAreInRange := by
  intro s hs
  have hidx {i : Nat} (hi : i < s.cfg.numChannels) : i < 2 ^ idxWidth s.cfg :=
    Nat.lt_of_lt_of_le hi (le_two_pow_idxWidth s.cfg)
  refine ⟨fun i v he => ?_, fun i b he => ?_,
    Nat.lt_of_le_of_lt hs.inv.fcc_le (lt_two_pow_fccWidth s.cfg), hidx hs.inv.mapIdx_lt,
    hs.inv.addrCtr_fits⟩
  · obtain ⟨hi, hv⟩ := hs.inv.output_inRange _ he
    exact ⟨hi, hidx hi, hv⟩
  · have hi : i < s.cfg.numChannels := hs.inv.output_inRange _ he
    exact ⟨hi, hidx hi⟩

/-- Settles O36: a step delivers one statement, and no instruction writes the three fields. -/
theorem stepsLeaveTheConfigurationAlone : Obligations.StepsLeaveTheConfigurationAlone := by
  intro s t h
  obtain ⟨-, ⟨hnil, hd⟩ | ⟨st, w, rest, hs, -, hd⟩⟩ := step_cases h
  · obtain ⟨hcfg, hbase, hsched⟩ := deliver_keeps hd
    exact ⟨hcfg, hbase, by rw [hsched, hnil]; rfl⟩
  · obtain ⟨hcfg, hbase, hsched⟩ := deliver_keeps hd
    exact ⟨hcfg, hbase, by rw [hsched, hs]; rfl⟩

/-! ## What a MAP step writes, emits and reads (R130) -/

/-- A MAP step from a state with the same MAP view makes the same move. -/
theorem mapMove_congr {s s' t : State} (hview : s'.mapView = s.mapView)
    (hm : MapMove s t) : ∃ t', deliver .map s' = .next t' ∧ t'.mapView = t.mapView
      ∧ ∃ es, t.output = s.output ++ es ∧ t'.output = s'.output ++ es := by
  obtain ⟨hcfg, hbuf, hflag, hphase, hidx⟩ := (mapView_eq_iff s' s).1 hview
  cases hm with
  | stay hp hf =>
    exact ⟨s', deliver_stay (hphase.trans hp) (hflag.trans hf), hview, [], by simp, by simp⟩
  | wake hp hf =>
    exact ⟨_, deliver_wake (hphase.trans hp) (hflag.trans hf), by simp [mapView_eq_iff, *], [],
      by simp, by simp⟩
  | clear hp =>
    exact ⟨_, deliver_clear (hphase.trans hp), by simp [mapView_eq_iff, *], [], by simp, by simp⟩
  | drive hp hi =>
    refine ⟨_, deliver_chan_more (hphase.trans hp) (by rw [hidx, hcfg]; exact hi),
      by simp [mapView_eq_iff, *], _, rfl, ?_⟩
    rw [byteAt_congr hcfg hbuf, hcfg, hidx]
  | driveLast hp hi =>
    refine ⟨_, deliver_chan_last (hphase.trans hp) (by rw [hidx, hcfg]; exact hi),
      by simp [mapView_eq_iff, *], _, rfl, ?_⟩
    rw [byteAt_congr hcfg hbuf, hcfg, hidx]

/-- The three fields of R130's list, the flag written only to 0, and the events of one channel. -/
theorem mapMove_writes {s t : State} (hm : MapMove s t) :
    (∃ p i, t = { s with
        mapPhase := p, mapIdx := i, updatePending := t.updatePending, output := t.output })
    ∧ (t.updatePending = s.updatePending ∨ t.updatePending = false)
    ∧ (t.output = s.output
        ∨ ∃ v, bufRead s.mapIdx s = some v
          ∧ t.output = s.output ++ channelEvents s.cfg s.mapIdx v) := by
  cases hm with
  | stay hp hf => exact ⟨⟨s.mapPhase, s.mapIdx, rfl⟩, .inl rfl, .inl rfl⟩
  | wake hp hf => exact ⟨⟨_, _, rfl⟩, .inl rfl, .inl rfl⟩
  | clear hp => exact ⟨⟨_, _, rfl⟩, .inr rfl, .inl rfl⟩
  | drive hp hi =>
    exact ⟨⟨_, _, rfl⟩, .inl rfl, .inr ⟨_, bufRead_of_lt (by omega), rfl⟩⟩
  | driveLast hp hi =>
    exact ⟨⟨_, _, rfl⟩, .inl rfl, .inr ⟨_, bufRead_of_lt (by omega), rfl⟩⟩

/-- Settles O38: a step over one MAP statement makes a move of MAP, and equal views make the same
one. -/
theorem mapStepTouchesOnlyItsOwnState : Obligations.MapStepTouchesOnlyItsOwnState := by
  intro s t hw hstep
  have hm := mapMove_of_deliver ((step_feed_one hw .map).symm.trans hstep)
  obtain ⟨hwrites, hflag, hout⟩ := mapMove_writes hm
  refine ⟨hwrites, hflag, hout, fun s' hview => ?_⟩
  have hcfg : s'.cfg = s.cfg := congrArg MapView.cfg hview
  rw [step_feed_one (hcfg ▸ hw)]
  exact mapMove_congr hview hm

end Sys2Proof.Machine
end

section
/-! Runs over statements: they complete and keep the invariant, their MAP steps play no part in RX's state, and no RX step but RX_FS_FIRST plays a part in the flag. -/

namespace Sys2Proof.Machine

/-! ## Runs complete -/

theorem deliverAll_keeps {sts : List Statement} {s t : State} (h : deliverAll sts s = .next t) :
    t.cfg = s.cfg ∧ t.baseAddress = s.baseAddress ∧ t.schedule = s.schedule := by
  induction sts generalizing s with
  | nil => cases h; exact ⟨rfl, rfl, rfl⟩
  | cons st sts ih =>
    obtain ⟨u, hu, h⟩ := deliverAll_cons_inv h
    obtain ⟨hcfg, hbase, hsched⟩ := deliver_keeps hu
    obtain ⟨hcfg', hbase', hsched'⟩ := ih h
    exact ⟨hcfg'.trans hcfg, hbase'.trans hbase, hsched'.trans hsched⟩

theorem schedule_of_deliverAll {sts : List Statement} {s t : State}
    (h : deliverAll sts s = .next t) : t.schedule = s.schedule := by
  obtain ⟨-, -, hsched⟩ := deliverAll_keeps h
  exact hsched

theorem State.Inv.deliverAll {sts : List Statement} {s t : State} (h : s.Inv)
    (hd : deliverAll sts s = .next t) : t.Inv := by
  induction sts generalizing s with
  | nil => cases hd; exact h
  | cons st sts ih =>
    obtain ⟨u, hu, hd⟩ := deliverAll_cons_inv hd
    exact ih (h.deliver hu) hd

theorem State.Inv.exists_deliverAll {s : State} (h : s.Inv) (sts : List Statement) :
    ∃ t, Machine.deliverAll sts s = .next t := by
  induction sts generalizing s with
  | nil => exact ⟨s, rfl⟩
  | cons st sts ih =>
    obtain ⟨u, hu⟩ := h.exists_deliver st
    obtain ⟨t, ht⟩ := ih (h.deliver hu)
    exact ⟨t, (deliverAll_cons hu).trans ht⟩

/-! ## MAP steps play no part in RX's state (R174) -/

/-- The input events of a run as statements, with the MAP steps left out. -/
def rxOnly (sts : List Statement) : List Statement := (rxEvents sts).map .rx

/-- A run leaves RX the state that its input events alone leave it. -/
theorem deliverAll_rxOnly {sts : List Statement} {s s' t : State} (hview : s.rxView = s'.rxView)
    (hd : deliverAll sts s = .next t) :
    ∃ t', deliverAll (rxOnly sts) s' = .next t' ∧ t'.rxView = t.rxView := by
  induction sts generalizing s s' with
  | nil => cases hd; exact ⟨s', rfl, hview.symm⟩
  | cons st sts ih =>
    obtain ⟨u, hu, hrest⟩ := deliverAll_cons_inv hd
    cases st with
    | rx e =>
      obtain ⟨u', hu', hview'⟩ := deliver_rx_congr hview hu
      obtain ⟨t', ht', hview'⟩ := ih hview'.symm hrest
      exact ⟨t', (deliverAll_cons hu').trans ht', hview'⟩
    | map => exact ih ((rxView_deliver_map hu).trans hview) hrest

/-- A run over statements from a state with the invariant, by what its input events alone do. -/
theorem State.Inv.run_of_rxOnly {s u : State} (h : s.Inv) {sts : List Statement}
    (hrx : Machine.deliverAll (rxOnly sts) s = .next u) :
    ∃ t, Machine.deliverAll sts s = .next t ∧ t.rxView = u.rxView := by
  obtain ⟨t, ht⟩ := h.exists_deliverAll sts
  obtain ⟨t', ht', hview⟩ := deliverAll_rxOnly rfl ht
  cases hrx.symm.trans ht'
  exact ⟨t, ht, hview.symm⟩

/-- Settles O42: both runs leave RX what their common input events leave it. -/
theorem mapStepsDoNotInfluenceRx : Obligations.MapStepsDoNotInfluenceRx := by
  intro s s' sts sts' hs hs' hview hevents
  obtain ⟨t, ht⟩ := hs.exists_deliverAll sts
  obtain ⟨t', ht'⟩ := hs'.exists_deliverAll sts'
  refine ⟨t, t', run_feed hs.cfg_legal ht, run_feed hs'.cfg_legal ht', ?_⟩
  obtain ⟨u, hu, huview⟩ := deliverAll_rxOnly hview ht
  obtain ⟨u', hu', huview'⟩ := deliverAll_rxOnly (s' := s') rfl ht'
  have hsame : rxOnly sts = rxOnly sts' := congrArg (List.map Statement.rx) hevents
  rw [hsame] at hu
  cases hu.symm.trans hu'
  exact huview.symm.trans huview'

/-! ## The flag over a run (R27) -/

theorem noClear_cons (p : Instr × State) (h : List (Instr × State)) :
    noClear (p :: h) ↔ (∀ f, p.1 ≠ .mapClear f) ∧ noClear h := List.forall_mem_cons

@[simp] theorem noClear_nil : noClear [] := fun _ hp => absurd hp List.not_mem_nil

theorem selectMap_ne_mapClear_iff (s : State) :
    (∀ f, selectMap s ≠ .mapClear f) ↔ s.mapPhase ≠ .clear := by
  rw [selectMap_eq]
  cases s.mapPhase <;> simp

theorem selectRx_ne_mapClear (e : RxEvent) (s : State) (f : Bool) : selectRx e s ≠ .mapClear f := by
  refine selectRx_cases (p := fun i => i ≠ .mapClear f) e ?_ ?_ ?_ ?_ ?_ ?_ ?_ ?_ <;> simp

theorem updatePending_of_deliver_rx {e : RxEvent} {s t : State} (h : deliver (.rx e) s = .next t) :
    t.updatePending = (s.updatePending || rxSets (selectRx e s)) := by
  obtain ⟨-, -, hflag, -⟩ := deliver_rx_effects h
  exact hflag

/-- Input events alone never clear the flag. -/
theorem updatePending_of_rx_run {es : List RxEvent} {s u : State}
    (hd : deliverAll (es.map .rx) s = .next u) (hu : u.updatePending = false) :
    s.updatePending = false := by
  induction es generalizing s with
  | nil => cases hd; exact hu
  | cons e es ih =>
    obtain ⟨v, hv, hd⟩ := deliverAll_cons_inv hd
    have hflag := updatePending_of_deliver_rx hv
    exact (Bool.or_eq_false_iff.1 (hflag.symm.trans (ih hd))).1

/-- Where the input events of a run, alone and with the flag 0 before them, leave it 0, the run's
flag is 1 at the end exactly if it was 1 and no MAP_CLEAR came. -/
theorem updatePending_of_run {sts : List Statement} {s s' t u : State} (hw : s.cfg.wf = true)
    (hview : s'.rxView = s.rxView) (hrx : deliverAll (rxOnly sts) s' = .next u)
    (hu : u.updatePending = false) (hd : deliverAll sts s = .next t) :
    t.updatePending = true ↔
      s.updatePending = true ∧ noClear (history sts.length (s.feed sts)) := by
  induction sts generalizing s s' with
  | nil => cases hd; simp
  | cons st sts ih =>
    obtain ⟨v, hv, hrest⟩ := deliverAll_cons_inv hd
    have hwv : v.cfg.wf = true := (deliver_keeps hv).1 ▸ hw
    rw [history_feed_cons hw sts hv, noClear_cons]
    cases st with
    | rx e =>
      obtain ⟨v', hv', hrx⟩ := deliverAll_cons_inv hrx
      obtain ⟨w, hdeliver, hwview⟩ := deliver_rx_congr hview hv'
      cases hv.symm.trans hdeliver
      have hflag' := updatePending_of_deliver_rx hv'
      rw [updatePending_of_rx_run hrx hu] at hflag'
      have hset : rxSets (selectRx e s) = false := by
        rw [← selectRx_of_rxView hview e]
        exact (Bool.or_eq_false_iff.1 hflag'.symm).2
      have hflag := updatePending_of_deliver_rx hv
      rw [hset, Bool.or_false] at hflag
      have hsel : ∀ f, select (.rx e) s ≠ .mapClear f := selectRx_ne_mapClear e s
      rw [ih hwv hwview.symm hrx hrest, hflag]
      simp [hsel]
    | map =>
      have hsel : (∀ f, select .map s ≠ .mapClear f) ↔ s.mapPhase ≠ .clear :=
        selectMap_ne_mapClear_iff s
      rw [ih hwv (hview.trans (rxView_deliver_map hv).symm) hrx hrest, deliver_map_flag hv, hsel]
      by_cases hp : s.mapPhase = .clear <;> simp [hp]

end Sys2Proof.Machine
end

section
/-! The laws of the receiver: what a run of input events does from each state, and with it the laws of R113 to R117, R192 and R203 with MAP steps anywhere. -/

namespace Sys2Proof.Machine

/-! ## Input events alone -/

theorem map_rx_bytes (ds : List Byte) : (bytes ds).map Statement.rx = ds.map .byte := by
  simp [bytes]

theorem deliverAll_bytes_idle {s : State} (h : s.rxState = .idle) (ds : List Byte) :
    deliverAll (ds.map .byte) s = .next s := by
  induction ds with
  | nil => rfl
  | cons d ds ih => exact (deliverAll_cons (deliver_byte_idle h d)).trans ih

/-- The slots before StartAddress are counted (R106). -/
theorem deliverAll_skips {s : State} {ds : List Byte} (hw : s.cfg.wf = true)
    (h : s.rxState = .frameStarted) (hlt : s.addrCtr + ds.length < (startAddress s).toNat) :
    deliverAll (ds.map .byte) s = .next { s with addrCtr := s.addrCtr + ds.length } := by
  induction ds generalizing s with
  | nil => rfl
  | cons d ds ih =>
    rw [List.length_cons] at hlt
    have hnext : nextAddr s = s.addrCtr + 1 := nextAddr_of_lt hw (by omega)
    have hg : gHit s = false := by
      refine Bool.eq_false_iff.2 fun hg => ?_
      have := (gHit_iff s).1 hg
      omega
    have hlt' : nextAddr s + ds.length < (startAddress s).toNat := by omega
    rw [List.map_cons, deliverAll_cons (deliver_skip h hg d),
      ih (s := { s with addrCtr := nextAddr s }) hw h hlt']
    simp only [hnext, List.length_cons, Nat.add_assoc, Nat.add_comm 1]

/-- Memory after bytes were stored from an index on. -/
def storeBytes (c : Config) : Memory → Nat → List Byte → Memory
  | m, _, [] => m
  | m, i, d :: ds => storeBytes c (Memory.write c m i d) (i + 1) ds

theorem read_storeBytes (c : Config) (m : Memory) (i : Nat) (ds : List Byte) (a : Nat) :
    Memory.read c (storeBytes c m i ds) a =
      if i ≤ a ∧ a < i + ds.length then ds.getD (a - i) 0#8 else Memory.read c m a := by
  induction ds generalizing m i with
  | nil => rw [if_neg (by simp)]; rfl
  | cons d ds ih =>
    rw [storeBytes, ih, List.length_cons]
    rcases Nat.lt_trichotomy a i with h | rfl | h
    · rw [if_neg (by omega), if_neg (by omega), Memory.read_write_other (by omega)]
    · rw [if_neg (by omega), if_pos (by omega)]
      simp
    · by_cases hlt : a < i + 1 + ds.length
      · have hsub : a - i = (a - (i + 1)) + 1 := by omega
        rw [if_pos (by omega), if_pos (by omega), hsub, List.getD_cons_succ]
      · rw [if_neg (by omega), if_neg (by omega), Memory.read_write_other (by omega)]

/-- Where RX is with k window bytes stored; `afterCapture n i` is this with the byte of index i
stored. -/
abbrev windowState (n k : Nat) : RxState := if k = n then .idle else .receiving

/-- Window bytes after the first, up to the end of the window (R108). -/
theorem deliverAll_stores {s : State} {ds : List Byte}
    (h : s.rxState = windowState s.cfg.numChannels s.fcc) (h1 : 1 ≤ s.fcc)
    (hle : s.fcc + ds.length ≤ s.cfg.numChannels) :
    deliverAll (ds.map .byte) s = .next
      { s with
        fcc := s.fcc + ds.length
        buf := storeBytes s.cfg s.buf s.fcc ds
        rxState := windowState s.cfg.numChannels (s.fcc + ds.length) } := by
  induction ds generalizing s with
  | nil =>
    show _ = Host.Outcome.next { s with rxState := windowState s.cfg.numChannels s.fcc }
    rw [← h]
    rfl
  | cons d ds ih =>
    rw [List.length_cons] at hle
    have hlt : s.fcc < s.cfg.numChannels := by omega
    have hr : s.rxState = .receiving := h.trans (if_neg (by omega))
    refine (deliverAll_cons (deliver_store hr h1 hlt d)).trans ((ih ?_ ?_ ?_).trans ?_)
    · rfl
    · exact Nat.le_add_left 1 s.fcc
    · show s.fcc + 1 + ds.length ≤ s.cfg.numChannels
      omega
    · simp only [List.length_cons, storeBytes, Nat.add_assoc, Nat.add_comm 1]

/-- The rest of a window and what follows it in the frame. -/
theorem deliverAll_rest {s : State} {ds : List Byte}
    (h : s.rxState = windowState s.cfg.numChannels s.fcc) (h1 : 1 ≤ s.fcc)
    (hle : s.fcc ≤ s.cfg.numChannels) (hcover : s.cfg.numChannels ≤ s.fcc + ds.length) :
    deliverAll (ds.map .byte) s = .next
      { s with
        fcc := s.cfg.numChannels
        buf := storeBytes s.cfg s.buf s.fcc (ds.take (s.cfg.numChannels - s.fcc))
        rxState := .idle } := by
  have hlen : s.fcc + (ds.take (s.cfg.numChannels - s.fcc)).length = s.cfg.numChannels := by
    rw [List.length_take]
    omega
  have hstores := deliverAll_stores h h1 (Nat.le_of_eq hlen)
  rw [hlen, windowState, if_pos rfl] at hstores
  have hrun := deliverAll_append _ _ _ _ _ hstores
    (deliverAll_bytes_idle rfl (ds.drop (s.cfg.numChannels - s.fcc)))
  rwa [← List.map_append, List.take_append_drop] at hrun

/-- The state after the byte of slot StartAddress (R107). -/
def firstStored (s : State) (d : Byte) : State :=
  { s with
    addrCtr := nextAddr s
    fcc := 1
    buf := Memory.write s.cfg s.buf 0 d
    updatePending := true
    rxState := windowState s.cfg.numChannels 1 }

theorem deliver_firstStored {s : State} (h : s.rxState = .frameStarted) (hg : gHit s = true)
    (hn : 1 ≤ s.cfg.numChannels) (d : Byte) : deliver (.byte d) s = .next (firstStored s d) :=
  deliver_first h hg hn d

/-- The state of a frame whose start code was 0x00, with k slots counted (R101, R104, R106). -/
def slotsCounted (s : State) (k : Nat) : State :=
  { s with addrCtr := k, output := s.output ++ [.breakSeen], rxState := .frameStarted }

theorem deliverAll_slotsCounted {s : State} {b : Byte} {ds : List Byte} (hw : s.cfg.wf = true)
    (h : s.rxState = .idle) (hlt : ds.length < (startAddress s).toNat) :
    deliverAll (.brk b :: .byte 0#8 :: ds.map .byte) s = .next (slotsCounted s ds.length) := by
  have hskips := deliverAll_skips (s := slotsCounted s 0) (ds := ds) hw rfl (by
    show 0 + ds.length < (startAddress s).toNat
    omega)
  rw [deliverAll_cons (deliver_break_idle h b), deliverAll_cons (deliver_start_code rfl)]
  refine hskips.trans ?_
  simp only [slotsCounted, Nat.zero_add]

/-- With the slots before StartAddress counted the guard holds. -/
theorem gHit_slotsCounted {s : State} {k : Nat} (hw : s.cfg.wf = true)
    (hk : k + 1 = (startAddress s).toNat) : gHit (slotsCounted s k) = true := by
  have hlt : (slotsCounted s k).addrCtr < (startAddress (slotsCounted s k)).toNat := by
    show k < (startAddress s).toNat
    omega
  exact (gHit_iff _).2 ((nextAddr_of_lt (s := slotsCounted s k) hw hlt).trans hk)

/-- A frame's window values. -/
def window (s : State) (ds : List Byte) : List Byte :=
  (ds.drop ((startAddress s).toNat - 1)).take s.cfg.numChannels

theorem getD_window {s : State} (ds : List Byte) {i : Nat} (hi : i < s.cfg.numChannels) :
    (window s ds).getD i 0#8 = windowByte s ds i := by
  simp [window, windowByte, List.getD_eq_getElem?_getD, hi]

theorem length_window {s : State} {ds : List Byte} (h : coversWindow s ds) :
    (window s ds).length = s.cfg.numChannels := by
  have hcover : (startAddress s).toNat - 1 + s.cfg.numChannels ≤ ds.length := h
  rw [window, List.length_take, List.length_drop]
  omega

/-- A frame that covers the window: the slots before it, slot StartAddress, and the rest. -/
theorem exists_split_of_coversWindow {s : State} {ds : List Byte} (hn : 1 ≤ s.cfg.numChannels)
    (h : coversWindow s ds) : ∃ pre d rest, ds = pre ++ d :: rest
      ∧ pre.length + 1 = (startAddress s).toNat ∧ s.cfg.numChannels ≤ 1 + rest.length := by
  have hcover : (startAddress s).toNat - 1 + s.cfg.numChannels ≤ ds.length := h
  have hpos := startAddress_pos s
  have hlt : (startAddress s).toNat - 1 < ds.length := by omega
  refine ⟨ds.take ((startAddress s).toNat - 1), ds[(startAddress s).toNat - 1],
    ds.drop ((startAddress s).toNat - 1 + 1), ?_, ?_, ?_⟩
  · rw [List.getElem_cons_drop, List.take_append_drop]
  · rw [List.length_take]
    omega
  · rw [List.length_drop]
    omega

theorem window_split {s : State} {pre rest : List Byte} {d : Byte} (hn : 1 ≤ s.cfg.numChannels)
    (hpre : pre.length + 1 = (startAddress s).toNat) :
    window s (pre ++ d :: rest) = d :: rest.take (s.cfg.numChannels - 1) := by
  obtain ⟨n, hn⟩ : ∃ n, s.cfg.numChannels = n + 1 := ⟨s.cfg.numChannels - 1, by omega⟩
  rw [window, ← hpre, hn, Nat.add_sub_cancel, List.drop_left, List.take_succ_cons,
    Nat.add_sub_cancel]

/-- The state after a frame that covers the window. -/
def captured (s : State) (ds : List Byte) : State :=
  { s with
    addrCtr := (startAddress s).toNat
    fcc := s.cfg.numChannels
    buf := storeBytes s.cfg s.buf 0 (window s ds)
    updatePending := true
    output := s.output ++ [.breakSeen]
    rxState := .idle }

/-- R115 without MAP steps. -/
theorem deliverAll_frame {s : State} {f : Frame} (hw : s.cfg.wf = true) (h : s.rxState = .idle)
    (hsc : f.startCode = 0#8) (hcover : coversWindow s f.slots) :
    deliverAll f.statements s = .next (captured s f.slots) := by
  obtain ⟨hn, -⟩ := (Config.wf_iff _).1 hw
  obtain ⟨pre, d, rest, hds, hpre, hrest⟩ := exists_split_of_coversWindow hn hcover
  have hst : f.statements
      = (.brk f.brk :: .byte 0#8 :: pre.map .byte) ++ .byte d :: rest.map .byte := by
    rw [Frame.statements, Frame.events, hsc, List.map_cons, List.map_cons, map_rx_bytes, hds,
      List.map_append, List.map_cons]
    rfl
  have hfirst := deliver_firstStored (s := slotsCounted s pre.length) rfl
    (gHit_slotsCounted hw hpre) hn d
  have hnext : nextAddr (slotsCounted s pre.length) = (startAddress s).toNat :=
    (gHit_iff _).1 (gHit_slotsCounted hw hpre)
  have hlast := deliverAll_rest (s := firstStored (slotsCounted s pre.length) d) rfl
    (Nat.le_refl 1) hn hrest
  rw [hst]
  refine deliverAll_append _ _ _ _ _ (deliverAll_slotsCounted hw h (by omega))
    ((deliverAll_cons hfirst).trans (hlast.trans ?_))
  rw [captured, hds, window_split hn hpre, ← hnext]
  rfl

theorem byteAt_captured {s : State} {ds : List Byte} (h : coversWindow s ds) {i : Nat}
    (hi : i < s.cfg.numChannels) : (captured s ds).byteAt i = windowByte s ds i := by
  refine (read_storeBytes s.cfg s.buf 0 (window s ds) i).trans ?_
  rw [length_window h, if_pos (by omega), Nat.sub_zero, getD_window ds hi]

/-! ## The flag after the first byte of a window -/

/-- The first byte of a window, from any state that looks to RX as if it came next. -/
theorem firstStored_of_rxView {s s' t : State} {d : Byte} (hview : s.rxView = s'.rxView)
    (hr : s'.rxState = .frameStarted) (hg : gHit s' = true) (hn : 1 ≤ s'.cfg.numChannels)
    (hd : deliver (.byte d) s = .next t) :
    t.updatePending = true ∧ t.rxView = (firstStored s' d).rxView := by
  obtain ⟨t', ht', hview'⟩ := deliver_rx_congr hview hd
  cases ht'.symm.trans (deliver_firstStored hr hg hn d)
  refine ⟨?_, hview'.symm⟩
  have hsel : selectRx ⟨false, d⟩ s = .rxFsFirst d := by
    rw [selectRx_of_rxView hview, selectRx_byte_frameStarted hr, if_pos hg]
  rw [updatePending_of_deliver_rx hd, hsel]
  exact Bool.or_true _

/-- Once the first byte of a window has set the flag, and where no later event sets it again, it
stays 1 exactly if no MAP_CLEAR comes. -/
theorem updatePending_after_first {before after : List Statement} {d : Byte} {s s' t w : State}
    (hw : s.cfg.wf = true) (hbefore : deliverAll (rxOnly before) s = .next s')
    (hr : s'.rxState = .frameStarted) (hg : gHit s' = true)
    (hafter : deliverAll (rxOnly after) { firstStored s' d with updatePending := false } = .next w)
    (hwflag : w.updatePending = false) (ht : deliverAll (before ++ .byte d :: after) s = .next t) :
    t.updatePending = true ↔ noClear ((history (before ++ .byte d :: after).length
      (s.feed (before ++ .byte d :: after))).drop (before.length + 1)) := by
  have hn : 1 ≤ s'.cfg.numChannels := by
    rw [(deliverAll_keeps hbefore).1]
    exact ((Config.wf_iff _).1 hw).1
  obtain ⟨u, hu, hlast⟩ := deliverAll_append_inv ht
  obtain ⟨v, hv, hlast⟩ := deliverAll_cons_inv hlast
  obtain ⟨u', hu', huview⟩ := deliverAll_rxOnly rfl hu
  cases hbefore.symm.trans hu'
  obtain ⟨hflag, hvview⟩ := firstStored_of_rxView huview.symm hr hg hn hv
  have hfirst : deliverAll (before ++ [.byte d]) s = .next v :=
    deliverAll_append _ _ _ _ _ hu (deliverAll_cons hv)
  have hwv : v.cfg.wf = true := (deliverAll_keeps hfirst).1 ▸ hw
  have hdrop := history_drop hw after hfirst
  rw [List.append_assoc, List.singleton_append, List.length_append, List.length_singleton] at hdrop
  rw [hdrop, updatePending_of_run (s' := { firstStored s' d with updatePending := false }) hwv
    hvview.symm hafter hwflag hlast]
  simp [hflag]

/-! ## The laws with MAP steps anywhere -/

theorem rxOnly_of_events {sts : List Statement} {es : List RxEvent} (h : rxEvents sts = es) :
    rxOnly sts = es.map .rx := congrArg _ h

theorem rxOnly_of_bytes {sts : List Statement} {ds : List Byte} (h : rxEvents sts = bytes ds) :
    rxOnly sts = ds.map .byte := (rxOnly_of_events h).trans (map_rx_bytes ds)

/-- Of a covering frame's run, the part before slot StartAddress and the part after it. -/
theorem rxOnly_split_of_frame {s : State} {before after : List Statement} {b d : Byte}
    {ds : List Byte} (hn : 1 ≤ s.cfg.numChannels) (hcover : coversWindow s ds)
    (hevents : rxEvents (before ++ .byte d :: after) = ⟨true, b⟩ :: ⟨false, 0#8⟩ :: bytes ds)
    (hlen : (rxEvents before).length = (startAddress s).toNat + 1) :
    ∃ pre rest : List Byte, rxOnly before = .brk b :: .byte 0#8 :: pre.map .byte
      ∧ rxOnly after = rest.map .byte ∧ pre.length + 1 = (startAddress s).toNat
      ∧ s.cfg.numChannels ≤ 1 + rest.length := by
  obtain ⟨pre, d', rest, rfl, hpre, hrest⟩ := exists_split_of_coversWindow hn hcover
  have hsplit : rxEvents before ++ ⟨false, d⟩ :: rxEvents after
      = (⟨true, b⟩ :: ⟨false, 0#8⟩ :: bytes pre) ++ ⟨false, d'⟩ :: bytes rest := by
    rw [rxEvents_append] at hevents
    exact hevents.trans (by simp [bytes])
  obtain ⟨hbefore, hafter⟩ := List.append_inj hsplit (by simp [bytes, hlen, ← hpre])
  refine ⟨pre, rest, ?_, rxOnly_of_bytes (List.cons.inj hafter).2, hpre, hrest⟩
  rw [rxOnly_of_events hbefore, List.map_cons, List.map_cons, map_rx_bytes]

/-- Settles O44: what the frame's events alone do gives RX's state; after slot StartAddress no event
sets the flag. -/
theorem frameCaptureLaw : Obligations.FrameCaptureLaw := by
  intro s b ds sts h hp hidle hcover hevents
  have hn := h.numChannels_pos
  have hrx : deliverAll (rxOnly sts) s = .next (captured s ds) :=
    (congrArg (deliverAll · s) (rxOnly_of_events hevents)).trans
      (deliverAll_frame (f := ⟨b, 0#8, ds⟩) h.cfg_legal hidle rfl hcover)
  obtain ⟨t, ht, hview⟩ := h.run_of_rxOnly hrx
  refine ⟨t, run_feed h.cfg_legal ht, congrArg RxView.rxState hview, schedule_of_deliverAll ht,
    fun i hi => (byteAt_of_rxView hview i).trans (byteAt_captured hcover hi), ?_⟩
  rintro before d after rfl hlen
  obtain ⟨pre, rest, hbefore, hafter, hpre, hrest⟩ := rxOnly_split_of_frame hn hcover hevents hlen
  have hcounted := deliverAll_slotsCounted (b := b) (ds := pre) h.cfg_legal hidle (by omega)
  have hlast := deliverAll_rest (ds := rest)
    (s := { firstStored (slotsCounted s pre.length) d with updatePending := false })
    rfl (Nat.le_refl 1) hn hrest
  rw [← hbefore] at hcounted
  rw [← hafter] at hlast
  exact updatePending_after_first h.cfg_legal hcounted rfl (gHit_slotsCounted h.cfg_legal hpre)
    hlast rfl ht

/-- Where the events alone, from any value of the flag, leave it as it was: it never rises, and only
a MAP_CLEAR lowers it. -/
theorem updatePending_of_quiet_events {sts : List Statement} {s t u : State} (hw : s.cfg.wf = true)
    (hrx : deliverAll (rxOnly sts) { s with updatePending := false } = .next u)
    (hu : u.updatePending = false) (ht : deliverAll sts s = .next t) :
    (s.updatePending = false → t.updatePending = false)
      ∧ (noClear (history sts.length (s.feed sts)) → t.updatePending = s.updatePending) := by
  have hflag := updatePending_of_run (s := s) (s' := { s with updatePending := false }) hw rfl
    hrx hu ht
  refine ⟨fun h0 => ?_, fun hclear => ?_⟩
  · simpa [h0] using hflag
  · simpa [hclear] using hflag

/-- Settles O45: in Idle bytes do nothing, whatever the flag. -/
theorem idleIgnoresEveryByte : Obligations.IdleIgnoresEveryByte := by
  intro s ds sts h hidle hevents
  have hrx {s' : State} (hs' : s'.rxState = .idle) : deliverAll (rxOnly sts) s' = .next s' := by
    rw [rxOnly_of_bytes hevents]
    exact deliverAll_bytes_idle hs' ds
  obtain ⟨t, ht, hview⟩ := h.run_of_rxOnly (hrx hidle)
  exact ⟨t, run_feed h.cfg_legal ht, hview,
    updatePending_of_quiet_events h.cfg_legal (hrx hidle) rfl ht⟩

/-- R116 without MAP steps. -/
theorem deliverAll_discarded {s : State} (h : s.rxState = .idle) (b : Byte) {sc : Byte}
    (hsc : sc ≠ 0#8) (ds : List Byte) :
    deliverAll (.brk b :: .byte sc :: ds.map .byte) s = .next
      { s with addrCtr := 0, output := s.output ++ [.breakSeen], rxState := .idle } := by
  rw [deliverAll_cons (deliver_break_idle h b), deliverAll_cons (deliver_other_start_code rfl hsc),
    deliverAll_bytes_idle rfl]

/-- Settles O46: the events alone take RX through BreakDetected back to Idle. -/
theorem discardLaw : Obligations.DiscardLaw := by
  intro s b sc ds sts h hidle hsc hevents
  have hrx {s' : State} (hs' : s'.rxState = .idle) : deliverAll (rxOnly sts) s' = .next
      { s' with addrCtr := 0, output := s'.output ++ [.breakSeen], rxState := .idle } := by
    rw [rxOnly_of_events hevents, List.map_cons, List.map_cons, map_rx_bytes]
    exact deliverAll_discarded hs' b hsc ds
  obtain ⟨t, ht, hview⟩ := h.run_of_rxOnly (hrx hidle)
  refine ⟨t, run_feed h.cfg_legal ht, hview.trans ?_,
    updatePending_of_quiet_events h.cfg_legal (hrx hidle) rfl ht⟩
  rw [State.rxView, State.rxView, hidle]

/-- Settles O47: the first break aborts, the bytes find RX in Idle, the second break is a new one.
-/
theorem abortLosesTheNextFrameThenResynchronises :
    Obligations.AbortLosesTheNextFrameThenResynchronises := by
  intro s b b' ds sts h hp hr hevents
  have hbytes := deliverAll_bytes_idle (s := { s with rxState := .idle }) rfl ds
  have hrx : deliverAll (rxOnly sts) s = .next
      { s with addrCtr := 0, output := s.output ++ [.breakSeen], rxState := .breakDetected } := by
    rw [rxOnly_of_events hevents, List.map_append, List.map_cons, map_rx_bytes, List.cons_append,
      deliverAll_cons (deliver_break_outside_idle hp hr b)]
    exact deliverAll_append _ _ _ _ _ hbytes (deliverAll_cons (deliver_break_idle rfl b'))
  obtain ⟨t, ht, hview⟩ := h.run_of_rxOnly hrx
  exact ⟨t, run_feed h.cfg_legal ht, hview⟩

theorem map_rx_bytes_break (ds : List Byte) (b : Byte) :
    (bytes ds ++ [(⟨true, b⟩ : RxEvent)]).map Statement.rx = ds.map .byte ++ [.brk b] := by
  rw [List.map_append, map_rx_bytes]
  rfl

/-- Window bytes that do not fill the window, then a break (R111, conflict C4). -/
theorem deliverAll_stores_abort {s : State} {ds : List Byte} (b : Byte)
    (hp : s.cfg.fePolicy = .resetToIdle) (h : s.rxState = windowState s.cfg.numChannels s.fcc)
    (h1 : 1 ≤ s.fcc) (hlt : s.fcc + ds.length < s.cfg.numChannels) :
    deliverAll (ds.map .byte ++ [.brk b]) s = .next
      { s with
        fcc := s.fcc + ds.length
        buf := storeBytes s.cfg s.buf s.fcc ds
        rxState := .idle } := by
  have hne : windowState s.cfg.numChannels (s.fcc + ds.length) ≠ .idle := by
    rw [windowState, if_neg (Nat.ne_of_lt hlt)]
    nofun
  exact deliverAll_append _ _ _ _ _ (deliverAll_stores h h1 (Nat.le_of_lt hlt))
    (deliverAll_cons (deliver_break_outside_idle (by exact hp) (by exact hne) b))

/-- The bytes of the aborted capture, and the others as they were. -/
theorem byteAt_of_aborted {s t : State} {d : Byte} {ds : List Byte} (hcfg : t.cfg = s.cfg)
    (hbuf : t.buf = storeBytes s.cfg s.buf 0 (d :: ds)) :
    (∀ i < ds.length + 1, t.byteAt i = (d :: ds).getD i 0#8)
      ∧ ∀ i, ds.length + 1 ≤ i → t.byteAt i = s.byteAt i := by
  have hread (i : Nat) : t.byteAt i =
      if 0 ≤ i ∧ i < 0 + (ds.length + 1) then (d :: ds).getD (i - 0) 0#8 else s.byteAt i := by
    rw [State.byteAt, hcfg, hbuf]
    exact read_storeBytes s.cfg s.buf 0 (d :: ds) i
  refine ⟨fun i hi => ?_, fun i hi => ?_⟩
  · rw [hread, if_pos (by omega), Nat.sub_zero]
  · rw [hread, if_neg (by omega)]

/-- Settles O48: the bytes after the first are stored one by one, and the break keeps them. -/
theorem abortedCaptureLeavesAStaleTail : Obligations.AbortedCaptureLeavesAStaleTail := by
  intro s b ds sts h hp hr hg h1 hlt hevents
  obtain ⟨d, ds, rfl⟩ : ∃ d ds', ds = d :: ds' := List.exists_cons_of_length_pos h1
  rw [List.length_cons] at hlt ⊢
  have hlt' : 1 + ds.length < s.cfg.numChannels := by omega
  have hrx := (deliverAll_cons (deliver_firstStored hr hg h.numChannels_pos d)).trans
    (deliverAll_stores_abort (s := firstStored s d) (ds := ds) b hp rfl (Nat.le_refl 1) hlt')
  have hstatements : rxOnly sts = .byte d :: (ds.map .byte ++ [.brk b]) :=
    (rxOnly_of_events hevents).trans (map_rx_bytes_break (d :: ds) b)
  rw [← hstatements] at hrx
  obtain ⟨t, ht, hview⟩ := h.run_of_rxOnly hrx
  obtain ⟨hstored, htail⟩ := byteAt_of_aborted (s := s) (d := d) (ds := ds)
    (congrArg RxView.cfg hview) (congrArg RxView.buf hview)
  refine ⟨t, run_feed h.cfg_legal ht, congrArg RxView.rxState hview,
    (congrArg RxView.fcc hview).trans (Nat.add_comm 1 _), hstored, htail, ?_⟩
  rintro before d' after rfl hnone
  rw [rxEvents_append, hnone] at hevents
  have hevents' : rxEvents after = bytes ds ++ [⟨true, b⟩] := (List.cons.inj hevents).2
  have hlast := deliverAll_stores_abort (ds := ds) b
    (s := { firstStored s d' with updatePending := false }) hp rfl (Nat.le_refl 1) hlt'
  rw [← map_rx_bytes_break, ← rxOnly_of_events hevents'] at hlast
  exact updatePending_after_first h.cfg_legal (by rw [rxOnly, hnone]; rfl) hr hg hlast rfl ht

/-- Settles O49: from reset neither agent has anything to do but ignore a byte and poll a flag that
is 0. -/
theorem nothingHappensBeforeTheFirstBreak : Obligations.NothingHappensBeforeTheFirstBreak := by
  intro c p ds sts hw hevents
  have hmap : deliver .map (State.resetWith c p) = .next (State.resetWith c p) := deliver_poll rfl
  have hd : deliverAll sts (State.resetWith c p) = .next (State.resetWith c p) := by
    induction sts generalizing ds with
    | nil => rfl
    | cons st sts ih =>
      cases st with
      | rx e =>
        cases ds with
        | nil => cases hevents
        | cons d ds =>
          obtain ⟨rfl, hrest⟩ := List.cons.inj hevents
          rw [deliverAll_cons (deliver_byte_idle rfl d), ih ds hrest]
      | map => rw [deliverAll_cons hmap, ih ds hevents]
  exact run_feed (s := State.resetWith c p) hw hd

end Sys2Proof.Machine
end

section
/-! The laws of the mapper: runs of MAP steps alone, whole cycles, quiescence, and the races of R200 and R201. -/

namespace Sys2Proof.Machine

/-! ## Part of the statements fed -/

theorem deliverAll_feed {sts : List Statement} {s t : State} (rest : List Statement)
    (h : deliverAll sts s = .next t) : deliverAll sts (s.feed rest) = .next (t.feed rest) := by
  induction sts generalizing s with
  | nil => cases h; rfl
  | cons st sts ih =>
    obtain ⟨u, hu, htail⟩ := deliverAll_cons_inv h
    have hfed : deliver st (s.feed rest) = .next (u.feed rest) := by
      rw [deliver_feed, hu, State.feed, schedule_of_deliver hu]
      rfl
    exact (deliverAll_cons hfed).trans (ih htail)

/-- A run over the first of the fed statements leaves the rest fed. -/
theorem run_feed_append {s t : State} (hw : s.cfg.wf = true) {sts : List Statement}
    (rest : List Statement) (h : deliverAll sts s = .next t) :
    run sts.length (s.feed (sts ++ rest)) = .next (t.feed rest) := by
  have hfeed : s.feed (sts ++ rest) = (s.feed rest).feed sts := by
    simp [State.feed, scheduleOf]
  rw [hfeed]
  exact run_feed (s := s.feed rest) hw (deliverAll_feed rest h)

/-! ## MAP steps alone -/

section mapSteps
variable {s : State}

/-- Channels that are not the last, from map_idx on (R134). -/
theorem deliverAll_channels {k : Nat} (hp : s.mapPhase = .chan)
    (hk : s.mapIdx + k < s.cfg.numChannels) :
    deliverAll (List.replicate k .map) s = .next
      { s with
        output := s.output ++
          (List.range' s.mapIdx k).flatMap fun i => channelEvents s.cfg i (s.byteAt i)
        mapIdx := s.mapIdx + k } := by
  induction k generalizing s with
  | zero => simp [deliverAll]
  | succ k ih =>
    have hmore : s.mapIdx + 1 < s.cfg.numChannels := by omega
    rw [List.replicate_succ, deliverAll_cons (deliver_chan_more hp hmore), ih (by exact hp)
      (by show s.mapIdx + 1 + k < s.cfg.numChannels; omega)]
    simp only [List.range'_succ, List.flatMap_cons, List.append_assoc, Nat.add_assoc,
      Nat.add_comm 1]
    rfl

/-- All channels from the first on, which ends the cycle (R134, R139). -/
theorem deliverAll_all_channels (hn : 1 ≤ s.cfg.numChannels) (hp : s.mapPhase = .chan)
    (hi : s.mapIdx = 0) :
    deliverAll (List.replicate s.cfg.numChannels .map) s = .next
      { s with
        mapPhase := .poll
        mapIdx := 0
        output := s.output ++ cycleEvents s.cfg s.byteAt } := by
  obtain ⟨k, hk⟩ : ∃ k, s.cfg.numChannels = k + 1 := ⟨s.cfg.numChannels - 1, by omega⟩
  have hfirst := deliverAll_channels (k := k) hp (by omega)
  rw [hk, List.replicate_succ']
  refine deliverAll_append _ _ _ _ _ hfirst ?_
  rw [deliverAll_cons (deliver_chan_last (by exact hp)
    (by show s.mapIdx + k + 1 = s.cfg.numChannels; omega))]
  simp only [deliverAll, cycleEvents, hk, hi, List.range_eq_range', List.range'_concat,
    List.flatMap_append, List.append_assoc, Nat.zero_add, Nat.one_mul, List.flatMap_singleton]
  rfl

/-- A cycle from MAP_CLEAR on (R139). -/
theorem deliverAll_cycle (hn : 1 ≤ s.cfg.numChannels) (hp : s.mapPhase = .clear) :
    deliverAll (List.replicate (s.cfg.numChannels + 1) .map) s = .next
      { s with
        updatePending := false
        mapPhase := .poll
        mapIdx := 0
        output := s.output ++ cycleEvents s.cfg s.byteAt } := by
  rw [List.replicate_succ, deliverAll_cons (deliver_clear hp)]
  exact deliverAll_all_channels
    (s := { s with updatePending := false, mapIdx := 0, mapPhase := .chan }) hn rfl rfl

/-- The statements of a CYCLE that finds the flag 1 (R81). -/
theorem deliverAll_whole_cycle (hn : 1 ≤ s.cfg.numChannels) (hp : s.mapPhase = .poll)
    (hf : s.updatePending = true) :
    deliverAll (cycleStatements s.cfg true) s = .next
      { s with
        updatePending := false
        mapPhase := .poll
        mapIdx := 0
        output := s.output ++ cycleEvents s.cfg s.byteAt } := by
  rw [cycleStatements, if_pos rfl, List.replicate_succ, deliverAll_cons (deliver_wake hp hf)]
  exact deliverAll_cycle (s := { s with mapPhase := .clear }) hn rfl

theorem deliverAll_stay (hp : s.mapPhase = .poll) (hf : s.updatePending = false) (k : Nat) :
    deliverAll (List.replicate k .map) s = .next s := by
  induction k with
  | zero => rfl
  | succ k ih => rw [List.replicate_succ, deliverAll_cons (deliver_stay hp hf), ih]

/-- Inside a cycle MAP is not at Poll. -/
theorem exists_deliverAll_inside_cycle (hp : s.mapPhase = .poll) (hf : s.updatePending = true)
    {j : Nat} (h0 : 0 < j) (hj : j < s.cfg.numChannels + 2) :
    ∃ u, deliverAll (List.replicate j .map) s = .next u ∧ u.mapPhase ≠ .poll := by
  rcases j with _ | _ | k
  · exact absurd h0 (Nat.lt_irrefl 0)
  · exact ⟨_, deliverAll_cons (deliver_wake hp hf), nofun⟩
  · have hchannels := deliverAll_channels (k := k)
      (s := { s with mapPhase := .chan, updatePending := false, mapIdx := 0 }) rfl
      (by show 0 + k < s.cfg.numChannels; omega)
    exact ⟨_, (deliverAll_cons (deliver_wake hp hf)).trans
      ((deliverAll_cons (deliver_clear rfl)).trans hchannels), nofun⟩

end mapSteps

/-- Settles O50: MAP_POLL, then MAP_CLEAR and the channels one by one. -/
theorem cycleLaw : Obligations.CycleLaw := by
  intro s hw
  obtain ⟨hn, -⟩ := (Config.wf_iff _).1 hw
  refine ⟨fun hp hf => (step_feed_one hw .map).trans (deliver_wake hp hf), fun hp => ?_⟩
  have hrun := run_feed hw (deliverAll_cycle hn hp)
  rwa [List.length_replicate] at hrun

/-- Settles O51: one MAP_POLL with the flag 0, a whole cycle with the flag 1, and its inside. -/
theorem cycleStatementsReturnToPoll : Obligations.CycleStatementsReturnToPoll := by
  intro s hw hp
  obtain ⟨hn, -⟩ := (Config.wf_iff _).1 hw
  refine ⟨List.length_replicate, ?_⟩
  cases hf : s.updatePending with
  | false =>
    refine ⟨s, run_feed hw (deliverAll_stay hp hf 1), hp, hf, rfl, (List.append_nil _).symm,
      fun j h0 hj => ?_⟩
    have hlen : (cycleStatements s.cfg false).length = 1 := rfl
    omega
  | true =>
    refine ⟨_, run_feed hw (deliverAll_whole_cycle hn hp hf), rfl, rfl, rfl, rfl,
      fun j h0 hj => ?_⟩
    have hsplit : cycleStatements s.cfg true
        = List.replicate j .map ++ List.replicate (s.cfg.numChannels + 2 - j) .map := by
      have hlen : j < s.cfg.numChannels + 2 := by simpa [cycleStatements] using hj
      rw [List.replicate_append_replicate, Nat.add_sub_cancel' (Nat.le_of_lt hlen)]
      rfl
    obtain ⟨u, hu, hne⟩ := exists_deliverAll_inside_cycle hp hf h0
      (by simpa [cycleStatements] using hj)
    have hrun := run_feed_append hw (List.replicate (s.cfg.numChannels + 2 - j) .map) hu
    rw [List.length_replicate, ← hsplit] at hrun
    exact ⟨_, hrun, hne⟩

/-! ## Quiescence (R138, R211) -/

theorem selectMap_of_quiescent {s : State} (h : s.quiescent) : selectMap s = .mapPoll false := by
  obtain ⟨-, hp, hf⟩ := h
  rw [selectMap_poll hp, hf]

theorem fetch_of_quiescent {s : State} (hw : s.cfg.wf = true) (h : s.quiescent) :
    fetch s = .ok (.mapPoll false, { s with schedule := s.schedule.tail }) := by
  have hsel := selectMap_of_quiescent h
  obtain ⟨hwords, -, -⟩ := h
  rw [fetch, if_pos hw]
  cases hs : s.schedule with
  | nil =>
    have hsame : ({ s with schedule := [] } : State) = s := by rw [← hs]
    simp only [hsel, List.tail_nil, hsame]
  | cons w rest =>
    have hword : decodeStatement w = .ok .map := hwords w (hs ▸ List.mem_cons_self)
    simp [hword, hsel]

theorem State.quiescent.tail {s : State} (h : s.quiescent) :
    State.quiescent { s with schedule := s.schedule.tail } := by
  obtain ⟨hwords, hp, hf⟩ := h
  exact ⟨fun w hw => hwords w (List.mem_of_mem_tail hw), hp, hf⟩

theorem run_of_quiescent {s : State} (hw : s.cfg.wf = true) (h : s.quiescent) (k : Nat) :
    run k s = .next { s with schedule := s.schedule.drop k }
      ∧ (history k s).length = k ∧ ∀ p ∈ history k s, p.1 = .mapPoll false := by
  induction k generalizing s with
  | zero => exact ⟨rfl, rfl, fun _ hp => absurd hp List.not_mem_nil⟩
  | succ k ih =>
    obtain ⟨-, -, hf⟩ := h.tail
    have hexec := exec_mapPoll_of_flag_clear false hf
    obtain ⟨hrun, hlen, hpolls⟩ := ih (s := { s with schedule := s.schedule.tail }) hw h.tail
    rw [List.drop_tail] at hrun
    have hhist : history (k + 1) s = (.mapPoll false, { s with schedule := s.schedule.tail })
        :: history k { s with schedule := s.schedule.tail } := by
      simp only [history, fetch_of_quiescent hw h, hexec]
    rw [hhist, List.length_cons, hlen]
    refine ⟨?_, rfl, List.forall_mem_cons.2 ⟨rfl, hpolls⟩⟩
    simp only [run, step, fetch_of_quiescent hw h, hexec]
    exact hrun

/-- Settles O43: each step is a MAP_POLL that finds the flag 0 and takes one MAP word. -/
theorem quiescentStateStaysAsItIs : Obligations.QuiescentStateStaysAsItIs := by
  intro s hw h
  refine ⟨run_of_quiescent hw h, rfl, fun _ => ?_⟩
  obtain ⟨-, hp, hf⟩ := h
  exact (step_feed_one hw .map).trans (deliver_stay hp hf)

/-! ## Races (R200, R201) -/

/-- In Chan a MAP step drives the channel map_idx from the byte the buffer holds. -/
theorem output_of_chan {s t : State} (hp : s.mapPhase = .chan) (h : deliver .map s = .next t) :
    t.output = s.output ++ channelEvents s.cfg s.mapIdx (s.byteAt s.mapIdx) := by
  cases mapMove_of_deliver h with
  | stay hpoll | wake hpoll => cases hp.symm.trans hpoll
  | clear hclear => cases hp.symm.trans hclear
  | drive => rfl
  | driveLast => rfl

/-- The state after a window byte that is not the first (R108). -/
def byteStored (s : State) (d : Byte) : State :=
  { s with
    fcc := s.fcc + 1
    buf := Memory.write s.cfg s.buf s.fcc d
    rxState := afterCapture s.cfg.numChannels s.fcc }

theorem State.Inv.deliver_byteStored {s : State} (h : s.Inv) (hr : s.rxState = .receiving)
    (d : Byte) : Machine.deliver (.byte d) s = .next (byteStored s d) :=
  deliver_store hr (h.fcc_range hr).1 (h.fcc_range hr).2 d

theorem byteAt_byteStored (s : State) (d : Byte) : (byteStored s d).byteAt s.fcc = d :=
  Memory.read_write_self s.cfg s.buf s.fcc d

/-- Settles O52: the MAP_CHAN reads the byte just stored. -/
theorem tornReadSeesTheNewByte : Obligations.TornReadSeesTheNewByte := by
  intro s d h hr hp hidx
  have hstore := h.deliver_byteStored hr d
  obtain ⟨t, ht⟩ := (h.deliver hstore).exists_deliver .map
  refine ⟨t, run_feed h.cfg_legal ((deliverAll_cons hstore).trans (deliverAll_cons ht)), ?_⟩
  have hdriven := output_of_chan (s := byteStored s d) hp ht
  rw [show (byteStored s d).mapIdx = s.fcc from hidx, byteAt_byteStored] at hdriven
  exact hdriven

theorem setPosition_mem_channelEvents {c : Config} {i j v : Nat} {b : Byte}
    (h : OutEvent.setPosition j v ∈ channelEvents c i b) : j = i := by
  obtain ⟨hj, -⟩ : j = i ∧ v = mapValue c b := by simpa [channelEvents] using h
  exact hj

/-- With the flag 0, MAP at Poll drives nothing more, and MAP in Chan only channels from map_idx on.
-/
theorem deliverAll_behind {s : State} (hi : s.mapIdx < s.cfg.numChannels)
    (hf : s.updatePending = false) {j : Nat}
    (hp : s.mapPhase = .poll ∨ (s.mapPhase = .chan ∧ j < s.mapIdx)) (k : Nat) :
    ∃ t es, deliverAll (List.replicate k .map) s = .next t ∧ t.updatePending = false
      ∧ t.rxView = s.rxView ∧ t.output = s.output ++ es
      ∧ ∀ v, OutEvent.setPosition j v ∉ es := by
  induction k generalizing s with
  | zero => exact ⟨s, [], rfl, hf, rfl, (List.append_nil _).symm, fun _ => List.not_mem_nil⟩
  | succ k ih =>
    rcases hp with hp | ⟨hp, hj⟩
    · exact ⟨s, [], deliverAll_stay hp hf _, hf, rfl, (List.append_nil _).symm,
        fun _ => List.not_mem_nil⟩
    have hnot (v : Nat) :
        OutEvent.setPosition j v ∉ channelEvents s.cfg s.mapIdx (s.byteAt s.mapIdx) := fun hv =>
      Nat.ne_of_lt hj (setPosition_mem_channelEvents hv)
    suffices hnext : ∃ u, deliver .map s = .next u ∧ u.mapIdx < u.cfg.numChannels
        ∧ u.updatePending = false ∧ (u.mapPhase = .poll ∨ (u.mapPhase = .chan ∧ j < u.mapIdx)) by
      obtain ⟨u, hu, hui, huf, hup⟩ := hnext
      obtain ⟨t, es, ht, htf, hview, hout, hes⟩ := ih hui huf hup
      refine ⟨t, channelEvents s.cfg s.mapIdx (s.byteAt s.mapIdx) ++ es, ?_, htf,
        hview.trans (rxView_deliver_map hu), ?_, fun v hv => ?_⟩
      · rw [List.replicate_succ, deliverAll_cons hu, ht]
      · rw [hout, output_of_chan hp hu, List.append_assoc]
      · exact (List.mem_append.1 hv).elim (hnot v) (hes v)
    rcases Nat.lt_or_eq_of_le (show s.mapIdx + 1 ≤ s.cfg.numChannels from hi) with hlt | hlast
    · exact ⟨_, deliver_chan_more hp hlt, hlt, hf, .inr ⟨hp, Nat.lt_succ_of_lt hj⟩⟩
    · exact ⟨_, deliver_chan_last hp hlast, Nat.zero_lt_of_lt hi, hf, .inl rfl⟩

/-- Settles O57: the byte is stored, and then MAP is behind no more than the rest of its cycle. -/
theorem byteStoredBehindMapIsNotDriven : Obligations.ByteStoredBehindMapIsNotDriven := by
  intro s d k h hr hf hp
  have hstore := h.deliver_byteStored hr d
  obtain ⟨t, es, ht, htf, hview, hout, hes⟩ :=
    deliverAll_behind (s := byteStored s d) h.mapIdx_lt hf hp k
  refine ⟨t, es, ?_, (byteAt_of_rxView hview _).trans (byteAt_byteStored s d), htf, hout, hes⟩
  have hrun := run_feed h.cfg_legal ((deliverAll_cons hstore).trans ht)
  rwa [List.length_cons, List.length_replicate] at hrun

end Sys2Proof.Machine
end

section
/-! The whole block: the lost update of R201, frames captured and driven one by one, infinite runs, and fairness of MAP. -/

namespace Sys2Proof.Machine

/-! ## The lost update (R201) -/

/-- A cycle's events depend on the bytes of the window alone. -/
theorem cycleEvents_congr {c : Config} {b b' : Nat → Byte} (h : ∀ i < c.numChannels, b i = b' i) :
    cycleEvents c b = cycleEvents c b' :=
  List.flatMap_congr fun i hi => by rw [h i (List.mem_range.1 hi)]

/-- The state after a first capture between MAP_POLL and MAP_CLEAR. -/
def updateLost (s : State) (d : Byte) : State :=
  { firstStored s d with updatePending := false, mapIdx := 0, mapPhase := .chan }

theorem deliverAll_updateLost {s : State} (hn : 1 ≤ s.cfg.numChannels)
    (hr : s.rxState = .frameStarted) (hg : gHit s = true) (hp : s.mapPhase = .poll)
    (hf : s.updatePending = true) (d : Byte) :
    deliverAll [.map, .byte d, .map] s = .next (updateLost s d) :=
  (deliverAll_cons (deliver_wake hp hf)).trans
    ((deliverAll_cons (deliver_firstStored (s := { s with mapPhase := .clear }) hr hg hn d)).trans
      (deliverAll_cons (deliver_clear rfl)))

theorem byteAt_updateLost (s : State) (d : Byte) (i : Nat) :
    (updateLost s d).byteAt i = if i = 0 then d else s.byteAt i := by
  split
  next hi => rw [hi]; exact Memory.read_write_self s.cfg s.buf 0 d
  next hi => exact Memory.read_write_other hi s.cfg s.buf d

/-- The rest of the cycle, the rest of the window, and MAP steps that find nothing to drive. -/
theorem deliverAll_after_updateLost {s : State} (hn : 1 ≤ s.cfg.numChannels) (d : Byte)
    {ds : List Byte} (hds : ds.length + 1 = s.cfg.numChannels) (k : Nat) :
    ∃ u, deliverAll
        (List.replicate s.cfg.numChannels .map ++ ds.map .byte ++ List.replicate k .map)
        (updateLost s d) = .next u
      ∧ u.updatePending = false ∧ u.mapPhase = .poll ∧ u.rxState = .idle
      ∧ (∀ i, i < ds.length → u.byteAt (i + 1) = ds.getD i 0#8)
      ∧ u.output = s.output ++ cycleEvents s.cfg (updateLost s d).byteAt := by
  have hcycle := deliverAll_all_channels (s := updateLost s d) hn rfl rfl
  have hstores := deliverAll_stores (ds := ds)
    (s := { updateLost s d with
      mapPhase := .poll
      mapIdx := 0
      output := s.output ++ cycleEvents s.cfg (updateLost s d).byteAt }) rfl (Nat.le_refl 1)
    (by show 1 + ds.length ≤ s.cfg.numChannels; omega)
  refine ⟨_, deliverAll_append _ _ _ _ _ (deliverAll_append _ _ _ _ _ hcycle hstores)
    (deliverAll_stay rfl rfl k), rfl, rfl, if_pos ?_, fun i hi => ?_, rfl⟩
  · show 1 + ds.length = s.cfg.numChannels
    omega
  · refine (read_storeBytes s.cfg (updateLost s d).buf 1 ds (i + 1)).trans ?_
    rw [if_pos (by omega), Nat.add_sub_cancel]

/-- Settles O53: one MAP_CLEAR after both sets of the flag, then a cycle over the new byte and the
old ones. -/
theorem lostUpdateMergesTwoSets : Obligations.LostUpdateMergesTwoSets := by
  intro s d h hr hg hp hf
  have hn := h.numChannels_pos
  refine ⟨updateLost s d, run_feed h.cfg_legal (deliverAll_updateLost hn hr hg hp hf d), rfl, rfl,
    byteAt_updateLost s d 0, rfl, fun ds k hds => ?_⟩
  obtain ⟨u, hu, huf, hup, hur, hbytes, hout⟩ := deliverAll_after_updateLost hn d hds k
  refine ⟨u, run_feed (s := updateLost s d) h.cfg_legal hu, huf, hup, hur, hbytes, ?_⟩
  rw [hout, cycleEvents_congr fun i _ => byteAt_updateLost s d i]

/-! ## Frame after frame (R115, R139) -/

/-- The state after a frame and a whole cycle. -/
def drivenFrame (s : State) (ds : List Byte) : State :=
  { captured s ds with
    updatePending := false
    mapPhase := .poll
    mapIdx := 0
    output := s.output ++ OutEvent.breakSeen :: cycleEvents s.cfg (windowByte s ds) }

theorem deliverAll_drivenFrame {s : State} {f : Frame} (hw : s.cfg.wf = true)
    (hr : s.rxState = .idle) (hp : s.mapPhase = .poll) (hsc : f.startCode = 0#8)
    (hcover : coversWindow s f.slots) :
    deliverAll (f.statements ++ cycleStatements s.cfg true) s = .next (drivenFrame s f.slots) := by
  obtain ⟨hn, -⟩ := (Config.wf_iff _).1 hw
  refine deliverAll_append _ _ _ _ _ (deliverAll_frame hw hr hsc hcover)
    ((deliverAll_whole_cycle (s := captured s f.slots) hn hp rfl).trans ?_)
  have hevents : cycleEvents s.cfg (captured s f.slots).byteAt
      = cycleEvents s.cfg (windowByte s f.slots) :=
    cycleEvents_congr fun i hi => byteAt_captured hcover hi
  show Host.Outcome.next { captured s f.slots with
    updatePending := false
    mapPhase := .poll
    mapIdx := 0
    output := (captured s f.slots).output ++ cycleEvents s.cfg (captured s f.slots).byteAt } = _
  rw [hevents, captured, List.append_assoc]
  rfl

/-- Frames that cover the window, each followed by a CYCLE. -/
def frameCycles (c : Config) (frames : List Frame) : List Statement :=
  frames.flatMap fun f => f.statements ++ cycleStatements c true

theorem deliverAll_frameCycles {s : State} {frames : List Frame} (hw : s.cfg.wf = true)
    (hr : s.rxState = .idle) (hp : s.mapPhase = .poll) (hf : s.updatePending = false)
    (hsc : nullStartCode frames) (hcover : frameCoversWindow s frames) :
    ∃ t, deliverAll (frameCycles s.cfg frames) s = .next t
      ∧ t.rxState = .idle ∧ t.mapPhase = .poll ∧ t.updatePending = false
      ∧ t.output = s.output ++ frames.flatMap fun f =>
          OutEvent.breakSeen :: cycleEvents s.cfg (windowByte s f.slots) := by
  induction frames generalizing s with
  | nil => exact ⟨s, rfl, hr, hp, hf, (List.append_nil _).symm⟩
  | cons f frames ih =>
    obtain ⟨hscf, hsc⟩ := List.forall_mem_cons.1 hsc
    obtain ⟨hcoverf, hcover⟩ := List.forall_mem_cons.1 hcover
    have hfirst := deliverAll_drivenFrame hw hr hp hscf hcoverf
    obtain ⟨t, ht, htr, htp, htf, hout⟩ :=
      ih (s := drivenFrame s f.slots) hw rfl rfl rfl hsc hcover
    refine ⟨t, deliverAll_append _ _ _ _ _ hfirst ht, htr, htp, htf, hout.trans ?_⟩
    show (s.output ++ OutEvent.breakSeen :: cycleEvents s.cfg (windowByte s f.slots)) ++
      (frames.flatMap fun g => OutEvent.breakSeen :: cycleEvents s.cfg (windowByte s g.slots)) = _
    rw [List.flatMap_cons, List.append_assoc]

/-- Settles O54: frame by frame. -/
theorem framesAreCapturedAndDriven : Obligations.FramesAreCapturedAndDriven := by
  intro s frames h _ hr hp hf hsc hcover
  obtain ⟨t, ht, htr, htp, htf, hout⟩ := deliverAll_frameCycles h.cfg_legal hr hp hf hsc hcover
  exact ⟨t, run_feed h.cfg_legal ht, htr, htp, htf, schedule_of_deliverAll ht, hout⟩

/-! ## Infinite runs (R211) -/

/-- The states of the run over an endless interleaving; a step that stops would repeat its state. -/
def statesFrom (s : State) (sts : Nat → Statement) : Nat → State
  | 0 => s
  | n + 1 =>
    match deliver (sts n) (statesFrom s sts n) with
    | .next t => t
    | .fault _ | .refused _ => statesFrom s sts n

theorem State.Inv.statesFrom {s : State} (h : s.Inv) (sts : Nat → Statement) (n : Nat) :
    (statesFrom s sts n).Inv ∧ Machine.deliver (sts n) (statesFrom s sts n)
      = .next (statesFrom s sts (n + 1)) := by
  induction n with
  | zero =>
    obtain ⟨t, ht⟩ := h.exists_deliver (sts 0)
    refine ⟨h, ?_⟩
    simp only [Machine.statesFrom, ht]
  | succ n ih =>
    have hinv := ih.1.deliver ih.2
    obtain ⟨t, ht⟩ := hinv.exists_deliver (sts (n + 1))
    refine ⟨hinv, ?_⟩
    rw [ht, Machine.statesFrom, ht]

theorem State.Inv.infiniteRun {s : State} (h : s.Inv) (sts : Nat → Statement) :
    InfiniteRun s sts (Machine.statesFrom s sts) where
  start := rfl
  next n := by
    obtain ⟨hinv, hd⟩ := h.statesFrom sts n
    rw [step_feed_one hinv.cfg_legal, hd]

section infiniteRun
variable {s : State} {sts : Nat → Statement} {σ : Nat → State}

theorem InfiniteRun.inv (hrun : InfiniteRun s sts σ) (h : s.Inv) (n : Nat) : (σ n).Inv := by
  induction n with
  | zero => exact hrun.start ▸ h
  | succ n ih => exact (ih.feed _).step (hrun.next n)

theorem InfiniteRun.deliver (hrun : InfiniteRun s sts σ) (h : s.Inv) (n : Nat) :
    deliver (sts n) (σ n) = .next (σ (n + 1)) :=
  (step_feed_one (hrun.inv h n).cfg_legal _).symm.trans (hrun.next n)

theorem InfiniteRun.deliverAll (hrun : InfiniteRun s sts σ) (h : s.Inv) (n : Nat) :
    deliverAll ((List.range n).map sts) s = .next (σ n) := by
  induction n with
  | zero => exact congrArg Host.Outcome.next hrun.start.symm
  | succ n ih =>
    rw [List.range_succ, List.map_append]
    exact deliverAll_append _ _ _ _ _ ih (deliverAll_cons (hrun.deliver h n))

theorem InfiniteRun.cfg_eq (hrun : InfiniteRun s sts σ) (h : s.Inv) (n : Nat) :
    (σ n).cfg = s.cfg := (deliverAll_keeps (hrun.deliverAll h n)).1

theorem InfiniteRun.next_eq (hrun : InfiniteRun s sts σ) (h : s.Inv) {n : Nat} {st : Statement}
    (hst : sts n = st) {t : State} (hd : Machine.deliver st (σ n) = .next t) : σ (n + 1) = t :=
  Host.Outcome.next.inj ((hst ▸ hrun.deliver h n).symm.trans hd)

end infiniteRun

/-- Settles O55: the run is fed one statement at a time, and each delivery has one result. -/
theorem everyInterleavingHasOneInfiniteRun : Obligations.EveryInterleavingHasOneInfiniteRun := by
  refine fun s sts h => ⟨⟨_, h.infiniteRun sts⟩, fun σ hrun n => ⟨?_, hrun.inv h n, fun σ' hrun' =>
    Host.Outcome.next.inj ((hrun'.deliverAll h n).symm.trans (hrun.deliverAll h n))⟩⟩
  have hprefix := run_feed h.cfg_legal (hrun.deliverAll h n)
  rwa [List.length_map, List.length_range] at hprefix

/-! ## Fairness of MAP (R166, decision D22) -/

/-- Channel i is driven at a step from n on. -/
def drivenFrom (sts : Nat → Statement) (σ : Nat → State) (i n : Nat) : Prop :=
  ∃ m, n ≤ m ∧ sts m = .map ∧ (σ m).mapPhase = .chan ∧ (σ m).mapIdx = i

theorem drivenFrom.mono {sts : Nat → Statement} {σ : Nat → State} {i n n' : Nat}
    (h : drivenFrom sts σ i n') (hle : n ≤ n') : drivenFrom sts σ i n := by
  obtain ⟨m, hm, hrest⟩ := h
  exact ⟨m, Nat.le_trans hle hm, hrest⟩

section fairness
variable {s : State} {sts : Nat → Statement} {σ : Nat → State} (h : s.Inv)
  (hrun : InfiniteRun s sts σ) (hfair : mapFair sts)
include h hrun hfair

/-- The next MAP step finds MAP where it stood, and a flag that was 1 still 1: RX clears no flag. -/
theorem exists_next_map (n : Nat) : ∃ m, n ≤ m ∧ sts m = .map ∧ (σ m).mapPhase = (σ n).mapPhase
    ∧ (σ m).mapIdx = (σ n).mapIdx
    ∧ ((σ n).updatePending = true → (σ m).updatePending = true) := by
  obtain ⟨k, hk⟩ : ∃ k, sts (n + k) = .map := by
    obtain ⟨m, hm, hmap⟩ := hfair n
    exact ⟨m - n, by rwa [Nat.add_sub_cancel' hm]⟩
  induction k generalizing n with
  | zero => exact ⟨n, Nat.le_refl n, hk, rfl, rfl, id⟩
  | succ k ih =>
    cases hst : sts n with
    | map => exact ⟨n, Nat.le_refl n, hst, rfl, rfl, id⟩
    | rx e =>
      have hd := hrun.deliver h n
      rw [hst] at hd
      obtain ⟨hphase, hidx, hflag, -⟩ := deliver_rx_effects hd
      obtain ⟨m, hm, hmap, hphase', hidx', hflag'⟩ := ih (n + 1) (by rwa [Nat.add_right_comm])
      refine ⟨m, Nat.le_of_succ_le hm, hmap, hphase'.trans hphase, hidx'.trans hidx, fun hf => ?_⟩
      exact hflag' (by rw [hflag, hf, Bool.true_or])

/-- From Chan at or below channel i, MAP gets to channel i. -/
theorem drivenFrom_of_chan {i : Nat} (hi : i < s.cfg.numChannels) (k : Nat) {n : Nat}
    (hp : (σ n).mapPhase = .chan) (hidx : (σ n).mapIdx + k = i) : drivenFrom sts σ i n := by
  induction k generalizing n with
  | zero =>
    obtain ⟨m, hm, hmap, hphase, hidx', -⟩ := exists_next_map h hrun hfair n
    exact ⟨m, hm, hmap, hphase.trans hp, hidx'.trans hidx⟩
  | succ k ih =>
    obtain ⟨m, hm, hmap, hphase, hidx', -⟩ := exists_next_map h hrun hfair n
    have hlt : (σ m).mapIdx + 1 < (σ m).cfg.numChannels := by
      rw [hrun.cfg_eq h m]
      omega
    have hnext := hrun.next_eq h hmap (deliver_chan_more (hphase.trans hp) hlt)
    refine (ih (n := m + 1) ?_ ?_).mono (Nat.le_succ_of_le hm)
    · rw [hnext]
      exact hphase.trans hp
    · rw [hnext]
      show (σ m).mapIdx + 1 + k = i
      omega

/-- From Clear MAP starts with channel 0. -/
theorem drivenFrom_of_clear {i : Nat} (hi : i < s.cfg.numChannels) {n : Nat}
    (hp : (σ n).mapPhase = .clear) : drivenFrom sts σ i n := by
  obtain ⟨m, hm, hmap, hphase, -, -⟩ := exists_next_map h hrun hfair n
  have hnext := hrun.next_eq h hmap (deliver_clear (hphase.trans hp))
  refine (drivenFrom_of_chan h hrun hfair hi i (n := m + 1) ?_ ?_).mono (Nat.le_succ_of_le hm)
  · rw [hnext]
  · rw [hnext]
    exact Nat.zero_add i

/-- From Poll with the flag 1 MAP goes to Clear. -/
theorem drivenFrom_of_poll {i : Nat} (hi : i < s.cfg.numChannels) {n : Nat}
    (hp : (σ n).mapPhase = .poll) (hf : (σ n).updatePending = true) : drivenFrom sts σ i n := by
  obtain ⟨m, hm, hmap, hphase, -, hflag⟩ := exists_next_map h hrun hfair n
  have hnext := hrun.next_eq h hmap (deliver_wake (hphase.trans hp) (hflag hf))
  refine (drivenFrom_of_clear h hrun hfair hi (n := m + 1) ?_).mono (Nat.le_succ_of_le hm)
  rw [hnext]

/-- From Chan with the flag 1 MAP ends its cycle, k channels before the last, and polls. -/
theorem drivenFrom_of_chan_of_flag {i : Nat} (hi : i < s.cfg.numChannels) (k : Nat) {n : Nat}
    (hp : (σ n).mapPhase = .chan) (hf : (σ n).updatePending = true)
    (hidx : (σ n).mapIdx + 1 + k = s.cfg.numChannels) : drivenFrom sts σ i n := by
  induction k generalizing n with
  | zero =>
    obtain ⟨m, hm, hmap, hphase, hidx', hflag⟩ := exists_next_map h hrun hfair n
    have hlast : (σ m).mapIdx + 1 = (σ m).cfg.numChannels := by
      rw [hrun.cfg_eq h m]
      omega
    have hnext := hrun.next_eq h hmap (deliver_chan_last (hphase.trans hp) hlast)
    refine (drivenFrom_of_poll h hrun hfair hi (n := m + 1) ?_ ?_).mono (Nat.le_succ_of_le hm)
    · rw [hnext]
    · rw [hnext]
      exact hflag hf
  | succ k ih =>
    obtain ⟨m, hm, hmap, hphase, hidx', hflag⟩ := exists_next_map h hrun hfair n
    have hlt : (σ m).mapIdx + 1 < (σ m).cfg.numChannels := by
      rw [hrun.cfg_eq h m]
      omega
    have hnext := hrun.next_eq h hmap (deliver_chan_more (hphase.trans hp) hlt)
    refine (ih (n := m + 1) ?_ ?_ ?_).mono (Nat.le_succ_of_le hm)
    · rw [hnext]
      exact hphase.trans hp
    · rw [hnext]
      exact hflag hf
    · rw [hnext]
      show (σ m).mapIdx + 1 + 1 + k = s.cfg.numChannels
      omega

theorem drivenFrom_of_flag {i : Nat} (hi : i < s.cfg.numChannels) {n : Nat}
    (hf : (σ n).updatePending = true) : drivenFrom sts σ i n := by
  have hinv := hrun.inv h n
  cases hp : (σ n).mapPhase with
  | poll => exact drivenFrom_of_poll h hrun hfair hi hp hf
  | clear => exact drivenFrom_of_clear h hrun hfair hi hp
  | chan =>
    have hlt := hinv.mapIdx_lt
    rw [hrun.cfg_eq h n] at hlt
    exact drivenFrom_of_chan_of_flag h hrun hfair hi (s.cfg.numChannels - ((σ n).mapIdx + 1)) hp hf
      (by omega)
  | reserved => exact absurd hp hinv.phase_legal

end fairness

/-- Settles O56: the MAP_CHAN that gets to channel i drives it from the byte it finds. -/
theorem fairMapDrivesEveryChannel : Obligations.FairMapDrivesEveryChannel := by
  intro s sts σ h hrun hfair n hf i hi
  obtain ⟨m, hm, hmap, hp, hidx⟩ := drivenFrom_of_flag h hrun hfair hi hf
  have hout := output_of_chan hp (hmap ▸ hrun.deliver h m)
  rw [hidx, hrun.cfg_eq h m] at hout
  exact ⟨m, hm, hmap, hp, hidx, hout⟩

end Sys2Proof.Machine
end

section
/-! Frames and cycles under the premises of R205: where RX stands in the input, which frames MAP has driven, and that each cycle drives one whole frame. -/

namespace Sys2Proof.Machine

/-! ## Where RX stands in the input -/

/-- The buffer holds a frame's window values below an index. -/
def holdsWindow (s u : State) (f : Frame) (k : Nat) : Prop :=
  ∀ i < k, u.byteAt i = windowByte s f.slots i

/-- The buffer holds the whole window of the last frame begun, if any. -/
def holdsLast (s u : State) (begun : List Frame) : Prop :=
  ∀ f ∈ begun.getLast?, holdsWindow s u f s.cfg.numChannels

/-- Where RX stands, with the events `es` still to come: `begun` are the frames whose slot
StartAddress has come, and the other frames follow them. -/
inductive Progress (s : State) (frames : List Frame) (u : State) (begun : List Frame)
    (es : List RxEvent) : Prop
  | between (ds : List Byte) (rest : List Frame) (hframes : frames = begun ++ rest)
      (hes : es = bytes ds ++ rest.flatMap Frame.events) (hr : u.rxState = .idle)
      (hlast : holdsLast s u begun)
  | opened (f : Frame) (rest : List Frame) (hframes : frames = begun ++ f :: rest)
      (hes : es = ⟨false, f.startCode⟩ :: (bytes f.slots ++ rest.flatMap Frame.events))
      (hr : u.rxState = .breakDetected) (hlast : holdsLast s u begun)
  | counting (f : Frame) (rest : List Frame) (pre ds : List Byte)
      (hframes : frames = begun ++ f :: rest) (hslots : f.slots = pre ++ ds)
      (hpre : pre.length = u.addrCtr) (hes : es = bytes ds ++ rest.flatMap Frame.events)
      (hr : u.rxState = .frameStarted) (hlast : holdsLast s u begun)
  | filling (f : Frame) (before rest : List Frame) (pre ds : List Byte)
      (hbegun : begun = before ++ [f]) (hframes : frames = begun ++ rest)
      (hslots : f.slots = pre ++ ds) (hpre : pre.length + 1 = (startAddress s).toNat + u.fcc)
      (hes : es = bytes ds ++ rest.flatMap Frame.events) (hr : u.rxState = .receiving)
      (hfilled : holdsWindow s u f u.fcc)

/-- A state of a run over frames: the invariant, what no step writes, and where RX stands. -/
structure Located (s : State) (frames : List Frame) (u : State) (begun : List Frame)
    (es : List RxEvent) : Prop where
  inv : u.Inv
  cfg_eq : u.cfg = s.cfg
  base_eq : u.baseAddress = s.baseAddress
  progress : Progress s frames u begun es

section progress
variable {s u v : State} {frames begun : List Frame} {es : List RxEvent}

theorem holdsWindow.congr {f : Frame} {k : Nat} (h : holdsWindow s u f k)
    (hbytes : ∀ i, v.byteAt i = u.byteAt i) : holdsWindow s v f k :=
  fun i hi => (hbytes i).trans (h i hi)

theorem holdsLast.congr (h : holdsLast s u begun) (hbytes : ∀ i, v.byteAt i = u.byteAt i) :
    holdsLast s v begun := fun f hf => (h f hf).congr hbytes

/-- Where RX stands is a matter of RX's view. -/
theorem Progress.of_rxView (h : Progress s frames u begun es) (hview : v.rxView = u.rxView) :
    Progress s frames v begun es := by
  have hbytes := byteAt_of_rxView hview
  obtain ⟨-, -, hr', ha, hf, -⟩ := (rxView_eq_iff v u).1 hview
  cases h with
  | between ds rest hframes hes hr hlast =>
    exact .between ds rest hframes hes (hr'.trans hr) (hlast.congr hbytes)
  | opened f rest hframes hes hr hlast =>
    exact .opened f rest hframes hes (hr'.trans hr) (hlast.congr hbytes)
  | counting f rest pre ds hframes hslots hpre hes hr hlast =>
    exact .counting f rest pre ds hframes hslots (hpre.trans ha.symm) hes (hr'.trans hr)
      (hlast.congr hbytes)
  | filling f before rest pre ds hbegun hframes hslots hpre hes hr hfilled =>
    exact .filling f before rest pre ds hbegun hframes hslots (hf ▸ hpre) hes (hr'.trans hr)
      (hf ▸ hfilled.congr hbytes)

/-- Outside Receiving the buffer holds the last frame begun. -/
theorem Progress.holdsLast (h : Progress s frames u begun es) (hr : u.rxState ≠ .receiving) :
    holdsLast s u begun := by
  cases h with
  | between _ _ _ _ _ hlast => exact hlast
  | opened _ _ _ _ _ hlast => exact hlast
  | counting _ _ _ _ _ _ _ _ _ hlast => exact hlast
  | filling _ _ _ _ _ _ _ _ _ _ hrcv _ => exact absurd hrcv hr

/-- Where RX stands once window bytes were stored up to the index k. -/
theorem Progress.of_stored {f : Frame} {before rest : List Frame} {pre ds : List Byte} {k : Nat}
    (hframes : frames = before ++ [f] ++ rest) (hslots : f.slots = pre ++ ds)
    (hpre : pre.length + 1 = (startAddress s).toNat + k) (hfcc : u.fcc = k)
    (hr : u.rxState = windowState s.cfg.numChannels k) (hfilled : holdsWindow s u f k) :
    Progress s frames u (before ++ [f]) (bytes ds ++ rest.flatMap Frame.events) := by
  by_cases hk : k = s.cfg.numChannels
  · refine .between ds rest hframes rfl (hr.trans (if_pos hk)) fun g hg => ?_
    rw [List.getLast?_concat, Option.mem_some] at hg
    rw [← hg, ← hk]
    exact hfilled
  · exact .filling f before rest pre ds rfl hframes hslots (by rw [hfcc, hpre]) rfl
      (hr.trans (if_neg hk)) (hfcc ▸ hfilled)

/-- The byte behind `pre` is the window value of the index it is stored at. -/
theorem windowByte_of_slots {f : Frame} {pre ds : List Byte} {d : Byte} {k : Nat}
    (hslots : f.slots = pre ++ d :: ds) (hpre : pre.length + 1 = (startAddress s).toNat + k) :
    windowByte s f.slots k = d := by
  have hidx : (startAddress s).toNat - 1 + k = pre.length := by
    have hpos := startAddress_pos s
    omega
  rw [windowByte, hidx, hslots]
  simp

theorem holdsWindow_succ {f : Frame} {k : Nat} {d : Byte} (hbelow : holdsWindow s u f k)
    (hk : windowByte s f.slots k = d) (hsame : ∀ i, i ≠ k → v.byteAt i = u.byteAt i)
    (hnew : v.byteAt k = d) : holdsWindow s v f (k + 1) := by
  intro i hi
  rcases Nat.lt_or_eq_of_le (Nat.le_of_lt_succ hi) with hlt | rfl
  · rw [hsame i (Nat.ne_of_lt hlt), hbelow i hlt]
  · rw [hnew, hk]

/-- What an RX step of a run over frames does: it begins no frame, and then leaves the flag, and
outside Receiving the buffer too; or it begins one, and sets the flag. -/
inductive RxAdvance (s : State) (frames : List Frame) (u v : State) (begun : List Frame)
    (e : RxEvent) (es : List RxEvent) : Prop
  | same (hprogress : Progress s frames v begun es) (hflag : v.updatePending = u.updatePending)
      (hr : v.rxState = .receiving → u.rxState = .receiving)
      (hbytes : u.rxState ≠ .receiving → ∀ i, v.byteAt i = u.byteAt i)
  | begins (f : Frame) (hprogress : Progress s frames v (begun ++ [f]) es)
      (hflag : v.updatePending = true) (hnext : ofNextFrame (selectRx e u) = true)

variable {e : RxEvent} (hl : Located s frames u begun (e :: es)) (hd : deliver (.rx e) u = .next v)
include hl hd

theorem Located.advance_between {ds : List Byte} {rest : List Frame}
    (hframes : frames = begun ++ rest) (hes : e :: es = bytes ds ++ rest.flatMap Frame.events)
    (hr : u.rxState = .idle) (hlast : holdsLast s u begun) :
    RxAdvance s frames u v begun e es := by
  cases ds with
  | nil =>
    cases rest with
    | nil => cases hes
    | cons f rest =>
      obtain ⟨rfl, htail⟩ := List.cons.inj hes
      cases (deliver_break_idle hr f.brk).symm.trans hd
      exact .same (.opened f rest hframes htail rfl hlast) rfl nofun fun _ _ => rfl
  | cons d ds =>
    obtain ⟨rfl, htail⟩ := List.cons.inj hes
    cases (deliver_byte_idle hr d).symm.trans hd
    exact .same (.between ds rest hframes htail hr hlast) rfl id fun _ _ => rfl

theorem Located.advance_opened {f : Frame} {rest : List Frame}
    (hframes : frames = begun ++ f :: rest) (hsc : f.startCode = 0#8)
    (hes : e :: es = ⟨false, f.startCode⟩ :: (bytes f.slots ++ rest.flatMap Frame.events))
    (hr : u.rxState = .breakDetected) (hlast : holdsLast s u begun) :
    RxAdvance s frames u v begun e es := by
  obtain ⟨rfl, htail⟩ := List.cons.inj hes
  rw [hsc] at hd
  cases (deliver_start_code hr).symm.trans hd
  have hzero : 0 = u.addrCtr := (hl.inv.addrCtr_zero hr).symm
  exact .same (.counting f rest [] f.slots hframes rfl hzero htail rfl hlast) rfl nofun
    fun _ _ => rfl

theorem Located.advance_counting {f : Frame} {rest : List Frame} {pre ds : List Byte}
    (hframes : frames = begun ++ f :: rest) (hcover : coversWindow s f.slots)
    (hslots : f.slots = pre ++ ds) (hpre : pre.length = u.addrCtr)
    (hes : e :: es = bytes ds ++ rest.flatMap Frame.events) (hr : u.rxState = .frameStarted)
    (hlast : holdsLast s u begun) : RxAdvance s frames u v begun e es := by
  have hn := hl.inv.numChannels_pos
  have hstart : startAddress u = startAddress s := by rw [startAddress, startAddress, hl.base_eq]
  have hbefore := hl.inv.before_window hr
  rw [hstart] at hbefore
  have hcover' : (startAddress s).toNat - 1 + s.cfg.numChannels ≤ f.slots.length := hcover
  cases ds with
  | nil =>
    rw [hslots, List.append_nil, ← hl.cfg_eq] at hcover'
    omega
  | cons d ds =>
    obtain ⟨rfl, htail⟩ := List.cons.inj hes
    have hslots' : f.slots = (pre ++ [d]) ++ ds := by rw [hslots, List.append_assoc]; rfl
    have hlen : (pre ++ [d]).length = u.addrCtr + 1 := by
      rw [List.length_append, hpre, List.length_singleton]
    have hnext := hl.inv.nextAddr_eq hr
    cases hg : gHit u with
    | false =>
      cases (deliver_skip hr hg d).symm.trans hd
      exact .same (.counting f rest (pre ++ [d]) ds hframes hslots' (hlen.trans hnext.symm) htail hr
        hlast) rfl id fun _ _ => rfl
    | true =>
      have hwin : u.addrCtr + 1 = (startAddress s).toNat := hstart ▸ (hl.inv.gHit_iff hr).1 hg
      cases (deliver_firstStored hr hg hn d).symm.trans hd
      have hsel : selectRx ⟨false, d⟩ u = .rxFsFirst d := by
        rw [selectRx_byte_frameStarted hr, if_pos hg]
      have hbyte : windowByte s f.slots 0 = d := windowByte_of_slots hslots (by omega)
      refine .begins f ?_ rfl (by rw [hsel]; rfl)
      rw [htail]
      refine .of_stored (k := 1) (by rw [hframes, List.append_assoc]; rfl) hslots'
        (by omega) rfl (by rw [← hl.cfg_eq]; rfl) (holdsWindow_succ (u := u) nofun hbyte ?_ ?_)
      · exact fun i hi => Memory.read_write_other hi u.cfg u.buf d
      · exact Memory.read_write_self u.cfg u.buf 0 d

theorem Located.advance_filling {f : Frame} {before rest : List Frame} {pre ds : List Byte}
    (hbegun : begun = before ++ [f]) (hframes : frames = begun ++ rest)
    (hcover : coversWindow s f.slots) (hslots : f.slots = pre ++ ds)
    (hpre : pre.length + 1 = (startAddress s).toNat + u.fcc)
    (hes : e :: es = bytes ds ++ rest.flatMap Frame.events) (hr : u.rxState = .receiving)
    (hfilled : holdsWindow s u f u.fcc) : RxAdvance s frames u v begun e es := by
  have hlt := (hl.inv.fcc_range hr).2
  rw [hl.cfg_eq] at hlt
  have hcover' : (startAddress s).toNat - 1 + s.cfg.numChannels ≤ f.slots.length := hcover
  cases ds with
  | nil =>
    rw [hslots, List.append_nil] at hcover'
    omega
  | cons d ds =>
    obtain ⟨rfl, htail⟩ := List.cons.inj hes
    have hslots' : f.slots = (pre ++ [d]) ++ ds := by rw [hslots, List.append_assoc]; rfl
    cases (hl.inv.deliver_byteStored hr d).symm.trans hd
    have hbyte := windowByte_of_slots hslots hpre
    refine .same ?_ rfl (fun _ => hr) fun hne => absurd hr hne
    rw [htail, hbegun]
    refine .of_stored (k := u.fcc + 1) (hbegun ▸ hframes) hslots'
      (by rw [List.length_append, List.length_singleton]; omega) rfl (by rw [← hl.cfg_eq]; rfl)
      (holdsWindow_succ hfilled hbyte ?_ (byteAt_byteStored u d))
    exact fun i hi => Memory.read_write_other hi u.cfg u.buf d

/-- One RX step of a run over frames that meet NullStartCode and FrameCoversWindow. -/
theorem Located.advance (hsc : nullStartCode frames) (hcover : frameCoversWindow s frames) :
    RxAdvance s frames u v begun e es := by
  cases hl.progress with
  | between ds rest hframes hes hr hlast => exact hl.advance_between hd hframes hes hr hlast
  | opened f rest hframes hes hr hlast =>
    exact hl.advance_opened hd hframes (hsc f (by simp [hframes])) hes hr hlast
  | counting f rest pre ds hframes hslots hpre hes hr hlast =>
    exact hl.advance_counting hd hframes (hcover f (by simp [hframes])) hslots hpre hes hr hlast
  | filling f before rest pre ds hbegun hframes hslots hpre hes hr hfilled =>
    exact hl.advance_filling hd hbegun hframes (hcover f (by simp [hframes, hbegun])) hslots hpre
      hes hr hfilled

end progress

/-! ## What MAP has driven -/

/-- The flag is 1 or a cycle runs: the last frame begun is still to be driven. -/
abbrev toDrive (u : State) : Prop := u.updatePending = true ∨ u.mapPhase ≠ .poll

/-- The last frame begun, where it is still to be driven. -/
def remaining (u : State) (begun : List Frame) : List Frame :=
  if toDrive u then begun.getLast?.toList else []

/-- The events of the frames driven. -/
def drivenEvents (s : State) (driven : List Frame) : List OutEvent :=
  driven.flatMap fun f => cycleEvents s.cfg (windowByte s f.slots)

/-- The events of the cycle that runs, if one does: the channels below map_idx. -/
def cycleSoFar (s u : State) : List OutEvent :=
  if u.mapPhase = .chan then
    (List.range u.mapIdx).flatMap fun i => channelEvents s.cfg i (u.byteAt i)
  else []

/-- MAP's side of an isolated run: no cycle runs while a window is filled, a running cycle has the
flag 0, and the frames driven are among those begun, in order. -/
structure Driving (s : State) (begun : List Frame) (u : State) (driven : List Frame) : Prop where
  filling : u.rxState = .receiving → u.updatePending = true ∧ u.mapPhase ≠ .chan
  chan_flag : u.mapPhase = .chan → u.updatePending = false
  begun_ne : toDrive u → begun ≠ []
  sublist : (driven ++ remaining u begun).Sublist begun
  last : u.updatePending = false → u.mapPhase = .poll → driven.getLast? = begun.getLast?
  events : mapEvents u.output = mapEvents s.output ++ drivenEvents s driven ++ cycleSoFar s u

theorem mapEvents_append (es es' : List OutEvent) :
    mapEvents (es ++ es') = mapEvents es ++ mapEvents es' := List.filter_append _ _

theorem mapEvents_channelEvents (c : Config) (i : Nat) (v : Byte) :
    mapEvents (channelEvents c i v) = channelEvents c i v := rfl

theorem mapEvents_rxEmits (i : Instr) : mapEvents (rxEmits i) = [] := by
  rcases rxEmits_cases i with h | h <;> rw [h] <;> rfl

theorem remaining_of_toDrive {u : State} (begun : List Frame) (h : toDrive u) :
    remaining u begun = begun.getLast?.toList := if_pos h

theorem remaining_congr {u v : State} (begun : List Frame) (hu : toDrive u) (hv : toDrive v) :
    remaining v begun = remaining u begun :=
  (remaining_of_toDrive begun hv).trans (remaining_of_toDrive begun hu).symm

theorem cycleSoFar_of_chan (s : State) {u : State} (h : u.mapPhase = .chan) :
    cycleSoFar s u = (List.range u.mapIdx).flatMap fun i => channelEvents s.cfg i (u.byteAt i) :=
  if_pos h

theorem cycleSoFar_of_ne_chan (s : State) {u : State} (h : u.mapPhase ≠ .chan) :
    cycleSoFar s u = [] := if_neg h

section driving
variable {s u v : State} {begun driven : List Frame}

/-- MAP_CHAN adds its channel to the cycle. -/
theorem cycleSoFar_append (hcfg : u.cfg = s.cfg) (h : u.mapPhase = .chan) :
    cycleSoFar s u ++ channelEvents u.cfg u.mapIdx (u.byteAt u.mapIdx) =
      (List.range (u.mapIdx + 1)).flatMap fun i => channelEvents s.cfg i (u.byteAt i) := by
  rw [cycleSoFar_of_chan s h, List.range_succ, List.flatMap_append, List.flatMap_singleton, hcfg]

theorem Driving.mapEvents_driven (h : Driving s begun u driven) (hcfg : u.cfg = s.cfg)
    (hp : u.mapPhase = .chan) :
    mapEvents (u.output ++ channelEvents u.cfg u.mapIdx (u.byteAt u.mapIdx)) =
      mapEvents s.output ++ drivenEvents s driven ++
        (List.range (u.mapIdx + 1)).flatMap fun i => channelEvents s.cfg i (u.byteAt i) := by
  rw [mapEvents_append, mapEvents_channelEvents, h.events, List.append_assoc,
    cycleSoFar_append hcfg hp]

/-- The end of a cycle drives the last frame begun. -/
theorem Driving.driveLast (h : Driving s begun u driven) (hcfg : u.cfg = s.cfg)
    (hlast : holdsLast s u begun) (hp : u.mapPhase = .chan)
    (hi : u.mapIdx + 1 = u.cfg.numChannels) (hv : v = { u with
      output := u.output ++ channelEvents u.cfg u.mapIdx (u.byteAt u.mapIdx)
      mapPhase := .poll
      mapIdx := 0 }) : ∃ driven', Driving s begun v driven' := by
  have hdrive : toDrive u := .inr (by simp [hp])
  obtain ⟨f, hf⟩ := Option.isSome_iff_exists.1
    (List.getLast?_isSome.2 (h.begun_ne hdrive))
  have hsub := h.sublist
  rw [remaining_of_toDrive begun hdrive, hf] at hsub
  have hflag := h.chan_flag hp
  have hidle : ¬ toDrive v := by simp [toDrive, hv, hflag]
  have hcycle : cycleEvents s.cfg (windowByte s f.slots) =
      (List.range (u.mapIdx + 1)).flatMap fun i => channelEvents s.cfg i (u.byteAt i) := by
    rw [hi, hcfg]
    exact (cycleEvents_congr fun i hi => hlast f hf i hi).symm
  refine ⟨driven ++ [f], ?_, ?_, fun hv' => absurd hv' hidle, ?_, fun _ _ => ?_, ?_⟩
  · intro hr
    exact absurd hp (h.filling (by rw [hv] at hr; exact hr)).2
  · exact fun hc => by simp [hv] at hc
  · rw [remaining, if_neg hidle, List.append_nil]
    exact hsub
  · rw [List.getLast?_concat, hf]
  · rw [cycleSoFar_of_ne_chan s (by simp [hv]), List.append_nil, hv]
    refine (h.mapEvents_driven hcfg hp).trans ?_
    rw [drivenEvents, drivenEvents, List.flatMap_append, List.flatMap_singleton, hcycle,
      List.append_assoc]

/-- A MAP step of an isolated run. -/
theorem Driving.mapMove (h : Driving s begun u driven) (hcfg : u.cfg = s.cfg)
    (hlast : u.rxState ≠ .receiving → holdsLast s u begun)
    (hiso : u.mapPhase = .clear → u.rxState ≠ .receiving) (hm : MapMove u v) :
    ∃ driven', Driving s begun v driven' := by
  cases hm with
  | stay hp hf => exact ⟨driven, h⟩
  | wake hp hf =>
    have hdrive : toDrive u := .inl hf
    refine ⟨driven, fun hr => ⟨hf, nofun⟩, nofun, fun _ => h.begun_ne hdrive, ?_, nofun, ?_⟩
    · rw [remaining_congr begun hdrive (.inr (by simp))]
      exact h.sublist
    · have hold := cycleSoFar_of_ne_chan s (u := u) (by simp [hp])
      have hnew := cycleSoFar_of_ne_chan s (u := { u with mapPhase := .clear }) nofun
      exact h.events.trans (by rw [hold, hnew])
  | clear hp =>
    have hdrive : toDrive u := .inr (by simp [hp])
    refine ⟨driven, fun hr => absurd hr (hiso hp), fun _ => rfl, fun _ => h.begun_ne hdrive, ?_,
      nofun, ?_⟩
    · rw [remaining_congr begun hdrive (.inr (by simp))]
      exact h.sublist
    · have hold := cycleSoFar_of_ne_chan s (u := u) (by simp [hp])
      exact h.events.trans (by rw [hold, cycleSoFar_of_chan s rfl]; rfl)
  | drive hp hi =>
    have hdrive : toDrive u := .inr (by simp [hp])
    refine ⟨driven, h.filling, h.chan_flag, h.begun_ne, h.sublist, h.last, ?_⟩
    rw [cycleSoFar_of_chan s (by exact hp)]
    exact h.mapEvents_driven hcfg hp
  | driveLast hp hi => exact h.driveLast hcfg (hlast fun hr => (h.filling hr).2 hp) hp hi rfl

/-- An RX step that begins no frame. -/
theorem Driving.rx_same {e : RxEvent} (h : Driving s begun u driven)
    (hd : deliver (.rx e) u = .next v) (hflag : v.updatePending = u.updatePending)
    (hr : v.rxState = .receiving → u.rxState = .receiving)
    (hbytes : u.rxState ≠ .receiving → ∀ i, v.byteAt i = u.byteAt i) :
    Driving s begun v driven := by
  obtain ⟨hphase, hidx, -, hout⟩ := deliver_rx_effects hd
  have hdrive : toDrive v ↔ toDrive u := by rw [toDrive, toDrive, hflag, hphase]
  have hcycle : cycleSoFar s v = cycleSoFar s u := by
    by_cases hp : u.mapPhase = .chan
    · have hb := hbytes fun hr => (h.filling hr).2 hp
      rw [cycleSoFar_of_chan s hp, cycleSoFar_of_chan s (hphase.trans hp), hidx]
      simp only [hb]
    · rw [cycleSoFar_of_ne_chan s hp, cycleSoFar_of_ne_chan s (hphase ▸ hp)]
  exact
    { filling := fun hrcv => by rw [hflag, hphase]; exact h.filling (hr hrcv)
      chan_flag := fun hp => hflag.trans (h.chan_flag (hphase ▸ hp))
      begun_ne := fun hv => h.begun_ne (hdrive.1 hv)
      sublist := by simpa only [remaining, hdrive] using h.sublist
      last := fun hf hp => h.last (hflag ▸ hf) (hphase ▸ hp)
      events := by
        rw [hout, mapEvents_append, mapEvents_rxEmits, List.append_nil, h.events, hcycle] }

/-- An RX step that begins a frame, which finds MAP at Poll: a frame not driven by then never is. -/
theorem Driving.rx_begins {e : RxEvent} (h : Driving s begun u driven)
    (hd : deliver (.rx e) u = .next v) (f : Frame) (hflag : v.updatePending = true)
    (hpoll : u.mapPhase = .poll) : Driving s (begun ++ [f]) v driven := by
  obtain ⟨hphase, -, -, hout⟩ := deliver_rx_effects hd
  have hp : v.mapPhase = .poll := hphase.trans hpoll
  have hne : v.mapPhase ≠ .chan := by simp [hp]
  have hsub : driven.Sublist begun := (List.sublist_append_left _ _).trans h.sublist
  exact
    { filling := fun _ => ⟨hflag, hne⟩
      chan_flag := fun hc => absurd hc hne
      begun_ne := fun _ => by simp
      sublist := by
        rw [remaining_of_toDrive _ (.inl hflag), List.getLast?_concat]
        exact hsub.append (List.Sublist.refl [f])
      last := fun hf _ => by simp [hflag] at hf
      events := by
        rw [hout, mapEvents_append, mapEvents_rxEmits, List.append_nil, h.events,
          cycleSoFar_of_ne_chan s hne, cycleSoFar_of_ne_chan s (by simp [hpoll])] }

end driving

/-! ## Runs over frames -/

theorem Located.mapMove {s u v : State} {frames begun : List Frame} {es : List RxEvent}
    (h : Located s frames u begun es) (hd : deliver .map u = .next v) :
    Located s frames v begun es := by
  obtain ⟨hcfg, hbase, -⟩ := deliver_keeps hd
  exact ⟨h.inv.deliver hd, hcfg.trans h.cfg_eq, hbase.trans h.base_eq,
    h.progress.of_rxView (rxView_deliver_map hd)⟩

theorem Located.rxStep {s u v : State} {frames begun begun' : List Frame} {e : RxEvent}
    {es es' : List RxEvent} (h : Located s frames u begun es) (hd : deliver (.rx e) u = .next v)
    (hprogress : Progress s frames v begun' es') : Located s frames v begun' es' := by
  obtain ⟨hcfg, hbase, -⟩ := deliver_keeps hd
  exact ⟨h.inv.deliver hd, hcfg.trans h.cfg_eq, hbase.trans h.base_eq, hprogress⟩

theorem Located.start {s : State} {frames : List Frame} {es : List RxEvent} (h : s.Inv)
    (hr : s.rxState = .idle) (hes : oneFePerBreak frames es) : Located s frames s [] es := by
  obtain ⟨ds, hes⟩ := hes
  exact ⟨h, rfl, rfl, .between ds frames rfl hes hr nofun⟩

/-- With no event to come and every frame covering the window, every frame was begun and RX is idle.
-/
theorem Located.finish {s u : State} {frames begun : List Frame}
    (h : Located s frames u begun []) (hcover : frameCoversWindow s frames) :
    begun = frames ∧ u.rxState = .idle ∧ holdsLast s u frames := by
  have hn := h.inv.numChannels_pos
  have hcfg := h.cfg_eq
  cases h.progress with
  | between ds rest hframes hes hr hlast =>
    have hrest : rest = [] := by
      cases rest with
      | nil => rfl
      | cons f rest => simp [Frame.events] at hes
    rw [hrest, List.append_nil] at hframes
    exact ⟨hframes.symm, hr, hframes ▸ hlast⟩
  | opened f rest hframes hes => cases hes
  | counting f rest pre ds hframes hslots hpre hes hr hlast =>
    have hbefore := h.inv.before_window hr
    rw [show startAddress u = startAddress s by rw [startAddress, startAddress, h.base_eq]]
      at hbefore
    have hds : ds = [] := by simpa [bytes] using (List.append_eq_nil_iff.1 hes.symm).1
    have hcover' : (startAddress s).toNat - 1 + s.cfg.numChannels ≤ f.slots.length :=
      hcover f (by simp [hframes])
    rw [hslots, hds, List.append_nil, ← hcfg] at hcover'
    omega
  | filling f before rest pre ds hbegun hframes hslots hpre hes hr hfilled =>
    have hlt := (h.inv.fcc_range hr).2
    have hds : ds = [] := by simpa [bytes] using (List.append_eq_nil_iff.1 hes.symm).1
    have hcover' : (startAddress s).toNat - 1 + s.cfg.numChannels ≤ f.slots.length :=
      hcover f (by simp [hframes, hbegun])
    rw [hslots, hds, List.append_nil, ← hcfg] at hcover'
    omega

section runs
variable {s : State} {frames : List Frame} (hsc : nullStartCode frames)
  (hcover : frameCoversWindow s frames)
include hsc hcover

/-- Wherever the MAP steps stand, RX gets through the frames. -/
theorem exists_located_of_run {sts : List Statement} {u t : State} {begun : List Frame}
    (h : Located s frames u begun (rxEvents sts)) (hd : deliverAll sts u = .next t) :
    ∃ begun', Located s frames t begun' [] := by
  induction sts generalizing u begun with
  | nil => cases hd; exact ⟨begun, h⟩
  | cons st sts ih =>
    obtain ⟨v, hv, hrest⟩ := deliverAll_cons_inv hd
    cases st with
    | map => exact ih (h.mapMove hv) hrest
    | rx e =>
      cases h.advance hv hsc hcover with
      | same hprogress => exact ih (h.rxStep hv hprogress) hrest
      | begins f hprogress => exact ih (h.rxStep hv hprogress) hrest

/-- At the end of frames the buffer holds the last one's window. -/
theorem holdsLast_of_run {sts : List Statement} {t : State} (h : s.Inv) (hr : s.rxState = .idle)
    (hone : oneFePerBreak frames (rxEvents sts)) (hd : deliverAll sts s = .next t) :
    t.rxState = .idle ∧ holdsLast s t frames := by
  obtain ⟨begun, hl⟩ := exists_located_of_run hsc hcover (.start h hr hone) hd
  exact (hl.finish hcover).2

/-- Of an isolated run, what MAP has driven at its end. -/
theorem exists_driving_of_run {sts : List Statement} {u t : State} {begun driven : List Frame}
    (h : Located s frames u begun (rxEvents sts)) (hdriving : Driving s begun u driven)
    (hiso : captureIsolated (history sts.length (u.feed sts)))
    (hd : deliverAll sts u = .next t) : ∃ driven', Driving s frames t driven' := by
  induction sts generalizing u begun driven with
  | nil =>
    cases hd
    exact (h.finish hcover).1 ▸ ⟨driven, hdriving⟩
  | cons st sts ih =>
    obtain ⟨v, hv, hrest⟩ := deliverAll_cons_inv hd
    rw [history_feed_cons h.inv.cfg_legal sts hv] at hiso
    obtain ⟨⟨hclear, hnext⟩, hiso'⟩ := List.forall_mem_cons.1 hiso
    cases st with
    | map =>
      have hclear' : u.mapPhase = .clear → u.rxState ≠ .receiving := fun hp =>
        hclear u.updatePending (selectMap_clear hp)
      obtain ⟨driven', hdriving'⟩ := hdriving.mapMove h.cfg_eq h.progress.holdsLast hclear'
        (mapMove_of_deliver hv)
      exact ih (h.mapMove hv) hdriving' hiso' hrest
    | rx e =>
      cases h.advance hv hsc hcover with
      | same hprogress hflag hrcv hbytes =>
        exact ih (h.rxStep hv hprogress) (hdriving.rx_same hv hflag hrcv hbytes) hiso' hrest
      | begins f hprogress hflag hfirst =>
        exact ih (h.rxStep hv hprogress) (hdriving.rx_begins hv f hflag (hnext hfirst)) hiso' hrest

end runs

/-- Settles O58: RX's side of the run by where it stands in the frames, MAP's side by what it has
driven. -/
theorem framePremisesGiveWholeFrames : Obligations.FramePremisesGiveWholeFrames := by
  intro s frames sts h _ hr hp hf hone hsc hcover hiso
  obtain ⟨t, ht⟩ := h.exists_deliverAll sts
  obtain ⟨hidle, hlast⟩ := holdsLast_of_run hsc hcover h hr hone ht
  have hstart : Driving s [] s [] :=
    { filling := fun hrcv => by simp [hr] at hrcv
      chan_flag := fun _ => hf
      begun_ne := fun hdrive => by simp [toDrive, hf, hp] at hdrive
      sublist := by simp [remaining]
      last := fun _ _ => rfl
      events := by simp [drivenEvents, cycleSoFar, hp] }
  obtain ⟨driven, hdriving⟩ :=
    exists_driving_of_run hsc hcover (.start h hr hone) hstart hiso ht
  have hcfg : t.cfg = s.cfg := (deliverAll_keeps ht).1
  refine ⟨t, run_feed h.cfg_legal ht, hidle, ?_, hlast, driven, hdriving.sublist, hdriving.last,
    hdriving.events⟩
  rintro before after done f rfl hprefix hone'
  obtain ⟨u, hu⟩ := h.exists_deliverAll before
  have hsub := hprefix.subset
  obtain ⟨-, hlast'⟩ := holdsLast_of_run (frames := done ++ [f]) (fun g hg => hsc g (hsub hg))
    (fun g hg => hcover g (hsub hg)) h hr hone' hu
  exact ⟨_, run_feed_append h.cfg_legal after hu,
    hlast' f (by rw [List.getLast?_concat]; exact Option.mem_some_self f)⟩

end Sys2Proof.Machine
end
